-- ==== Sys2Proof/Word.lean ====
section
/-! DEFINITION. The machine's number types (00_scope.md R5, R6): every value is unsigned, and no
rule sign-extends. -/

namespace Sys2Proof

/-- A byte: a memory cell, a general register, a timer, the immediate NN. -/
abbrev Byte := BitVec 8

/-- A 16-bit value: the instruction word, I, PC, a stack slot. -/
abbrev Word := BitVec 16

/-- A 12-bit address field NNN of an instruction word. -/
abbrev Addr12 := BitVec 12

/-- A 4-bit field of an instruction word. -/
abbrev Nibble := BitVec 4

/-- The number of a general register, V0 to VF (10_state.md R11). -/
abbrev Reg := Fin 16

/-- VF, the flag register: register 15 (10_state.md R12). -/
abbrev Reg.vf : Reg := 15

end Sys2Proof
end

