-- ==== Sys2Proof/Syntax.lean ====
section
/-! DEFINITION. The 34 instructions of 30_encoding.md R56 (Table 30-3), one constructor a row in the
table's order, and the six fields of an instruction word (R51). The operands' types carry their
ranges (R53: every register number 0 to 15, every NN, N and NNN is legal wherever the instruction
has the field), so there is no ill-formed `Instr`; what can be illegal is a word (WellFormed.lean). -/

namespace Sys2Proof

/-- The fields the decoder extracts from a word (R51, Table 30-1). They overlap: Y and N are the
halves of NN, and X, Y, N together are NNN. -/
structure Fields where
  /-- `F = w[15:12]`, the instruction family. -/
  f : Nibble
  /-- `X = w[11:8]`. -/
  x : Nibble
  /-- `Y = w[7:4]`. -/
  y : Nibble
  /-- `N = w[3:0]`. -/
  n : Nibble
  /-- `NN = w[7:0]`. -/
  nn : Byte
  /-- `NNN = w[11:0]`. -/
  nnn : Addr12
  deriving DecidableEq, Repr

inductive Instr where
  /-- `CLS` (00E0, R145). -/
  | cls
  /-- `RET` (00EE, R91). -/
  | ret
  /-- `JP addr` (1NNN, R92). -/
  | jp (nnn : Addr12)
  /-- `CALL addr` (2NNN, R93). -/
  | call (nnn : Addr12)
  /-- `SE Vx, byte` (3XNN, R94). -/
  | seByte (x : Reg) (nn : Byte)
  /-- `SNE Vx, byte` (4XNN, R95). -/
  | sneByte (x : Reg) (nn : Byte)
  /-- `SE Vx, Vy` (5XY0, R96). -/
  | seReg (x y : Reg)
  /-- `LD Vx, byte` (6XNN, R111). -/
  | ldByte (x : Reg) (nn : Byte)
  /-- `ADD Vx, byte` (7XNN, R112). -/
  | addByte (x : Reg) (nn : Byte)
  /-- `LD Vx, Vy` (8XY0, R113). -/
  | ldReg (x y : Reg)
  /-- `OR Vx, Vy` (8XY1, R114). -/
  | orReg (x y : Reg)
  /-- `AND Vx, Vy` (8XY2, R115). -/
  | andReg (x y : Reg)
  /-- `XOR Vx, Vy` (8XY3, R116). -/
  | xorReg (x y : Reg)
  /-- `ADD Vx, Vy` (8XY4, R117). -/
  | addReg (x y : Reg)
  /-- `SUB Vx, Vy` (8XY5, R118). -/
  | sub (x y : Reg)
  /-- `SHR Vx` (8XY6, R119). The Y field is part of the word and selects nothing (R58); it is kept
  so that every legal word is the encoding of exactly one instruction. -/
  | shr (x y : Reg)
  /-- `SUBN Vx, Vy` (8XY7, R120). -/
  | subn (x y : Reg)
  /-- `SHL Vx` (8XYE, R121). The Y field selects nothing, as in `shr`. -/
  | shl (x y : Reg)
  /-- `SNE Vx, Vy` (9XY0, R98). -/
  | sneReg (x y : Reg)
  /-- `LD I, addr` (ANNN, R130). -/
  | ldI (nnn : Addr12)
  /-- `JP V0, addr` (BNNN, R97). -/
  | jpV0 (nnn : Addr12)
  /-- `RND Vx, byte` (CXNN, R140). -/
  | rnd (x : Reg) (nn : Byte)
  /-- `DRW Vx, Vy, nibble` (DXYN, R146). -/
  | drw (x y : Reg) (n : Nibble)
  /-- `SKP Vx` (EX9E, R160). -/
  | skp (x : Reg)
  /-- `SKNP Vx` (EXA1, R161). -/
  | sknp (x : Reg)
  /-- `LD Vx, DT` (FX07, R170). -/
  | ldVxDt (x : Reg)
  /-- `LD Vx, K` (FX0A, R171). -/
  | ldVxK (x : Reg)
  /-- `LD DT, Vx` (FX15, R172). -/
  | ldDtVx (x : Reg)
  /-- `LD ST, Vx` (FX18, R173). -/
  | ldStVx (x : Reg)
  /-- `ADD I, Vx` (FX1E, R131). -/
  | addIVx (x : Reg)
  /-- `LD F, Vx` (FX29, R132). -/
  | ldFVx (x : Reg)
  /-- `LD B, Vx` (FX33, R174). -/
  | ldBVx (x : Reg)
  /-- `LD [I], Vx` (FX55, R175). -/
  | ldMemVx (x : Reg)
  /-- `LD Vx, [I]` (FX65, R176). -/
  | ldVxMem (x : Reg)
  deriving DecidableEq, Repr

end Sys2Proof
end

