-- ==== Sys2Proof/WellFormed.lean ====
section
/-! DEFINITION. Which words are instructions. The decoder's fields are always well formed and
"legality of the resulting instruction is judged afterward" (30_encoding.md R50); this file is that
judgement, family by family (R54, R57). Matching is strict: the secondary opcode must be exact. An
`Instr` needs no check of its own, since its operands' types carry their ranges. -/

namespace Sys2Proof

/-- Family 0: the low 12 bits are those of `CLS` or `RET` (R54). -/
def Fields.legalFamily0 (d : Fields) : Bool := d.nnn == 0x0E0#12 || d.nnn == 0x0EE#12

/-- Families 5 and 9: N is 0 (R54). -/
def Fields.legalFamily5or9 (d : Fields) : Bool := d.n == 0#4

/-- Family 8: N is one of 0 to 7 or 0xE (R54). -/
def Fields.legalFamily8 (d : Fields) : Bool := decide (d.n.toNat ≤ 7) || d.n == 0xE#4

/-- Family E: NN is 0x9E or 0xA1 (R54). -/
def Fields.legalFamilyE (d : Fields) : Bool := d.nn == 0x9E#8 || d.nn == 0xA1#8

/-- Family F: NN is one of the nine secondary opcodes of R54. -/
def Fields.legalFamilyF (d : Fields) : Bool :=
  [0x07#8, 0x0A#8, 0x15#8, 0x18#8, 0x1E#8, 0x29#8, 0x33#8, 0x55#8, 0x65#8].contains d.nn

/-- The fields of a word that is an instruction: the ten families 1, 2, 3, 4, 6, 7, A, B, C and D are
wholly legal, and the other six are judged on a secondary opcode (R54). -/
def Fields.legal (d : Fields) : Bool :=
  if d.f = 0x0#4 then d.legalFamily0
  else if d.f = 0x5#4 then d.legalFamily5or9
  else if d.f = 0x8#4 then d.legalFamily8
  else if d.f = 0x9#4 then d.legalFamily5or9
  else if d.f = 0xE#4 then d.legalFamilyE
  else if d.f = 0xF#4 then d.legalFamilyF
  else true

end Sys2Proof
end

