-- ==== Sys2Proof/Decode.lean ====
section
/-! DEFINITION. From bytes to instructions and back (30_encoding.md R50 to R58, 20_memory.md R31).
Decoding is total: an illegal word and a byte list that is too short are answers of their own. The
encoder is written from Table 30-3's patterns. -/

namespace Sys2Proof

/-- The six fixed-position fields of a word (R51, Table 30-1). -/
def Fields.ofWord (w : Word) : Fields where
  f := w.extractLsb' 12 4
  x := w.extractLsb' 8 4
  y := w.extractLsb' 4 4
  n := w.extractLsb' 0 4
  nn := w.extractLsb' 0 8
  nnn := w.extractLsb' 0 12

/-- A 4-bit field as the register it selects (R53). -/
def Reg.ofNibble (n : Nibble) : Reg := n.toFin

/-- A register as the 4-bit field that selects it. -/
def Reg.toNibble (r : Reg) : Nibble := BitVec.ofFin r

/-- Family 0: `CLS` and `RET` (R54). -/
def decodeFamily0 (d : Fields) : Option Instr :=
  match d.nnn with
  | 0x0E0#12 => some .cls
  | 0x0EE#12 => some .ret
  | _ => none

/-- Family 5: `SE Vx, Vy`, with N = 0 (R54). -/
def decodeFamily5 (d : Fields) : Option Instr :=
  if d.n = 0#4 then some (.seReg (Reg.ofNibble d.x) (Reg.ofNibble d.y)) else none

/-- Family 8: the nine two-register operations, selected by N (R54). -/
def decodeFamily8 (d : Fields) : Option Instr :=
  let x := Reg.ofNibble d.x
  let y := Reg.ofNibble d.y
  match d.n with
  | 0x0#4 => some (.ldReg x y)
  | 0x1#4 => some (.orReg x y)
  | 0x2#4 => some (.andReg x y)
  | 0x3#4 => some (.xorReg x y)
  | 0x4#4 => some (.addReg x y)
  | 0x5#4 => some (.sub x y)
  | 0x6#4 => some (.shr x y)
  | 0x7#4 => some (.subn x y)
  | 0xE#4 => some (.shl x y)
  | _ => none

/-- Family 9: `SNE Vx, Vy`, with N = 0 (R54). -/
def decodeFamily9 (d : Fields) : Option Instr :=
  if d.n = 0#4 then some (.sneReg (Reg.ofNibble d.x) (Reg.ofNibble d.y)) else none

/-- Family E: the two key skips, selected by NN (R54). -/
def decodeFamilyE (d : Fields) : Option Instr :=
  match d.nn with
  | 0x9E#8 => some (.skp (Reg.ofNibble d.x))
  | 0xA1#8 => some (.sknp (Reg.ofNibble d.x))
  | _ => none

/-- Family F: the nine timer, key-wait, index and memory instructions, selected by NN (R54). -/
def decodeFamilyF (d : Fields) : Option Instr :=
  let x := Reg.ofNibble d.x
  match d.nn with
  | 0x07#8 => some (.ldVxDt x)
  | 0x0A#8 => some (.ldVxK x)
  | 0x15#8 => some (.ldDtVx x)
  | 0x18#8 => some (.ldStVx x)
  | 0x1E#8 => some (.addIVx x)
  | 0x29#8 => some (.ldFVx x)
  | 0x33#8 => some (.ldBVx x)
  | 0x55#8 => some (.ldMemVx x)
  | 0x65#8 => some (.ldVxMem x)
  | _ => none

/-- The instruction with these fields, or none when the word is illegal: first the family, then in
six families the secondary opcode (R54). -/
def decodeFields (d : Fields) : Option Instr :=
  match d.f with
  | 0x0#4 => decodeFamily0 d
  | 0x1#4 => some (.jp d.nnn)
  | 0x2#4 => some (.call d.nnn)
  | 0x3#4 => some (.seByte (Reg.ofNibble d.x) d.nn)
  | 0x4#4 => some (.sneByte (Reg.ofNibble d.x) d.nn)
  | 0x5#4 => decodeFamily5 d
  | 0x6#4 => some (.ldByte (Reg.ofNibble d.x) d.nn)
  | 0x7#4 => some (.addByte (Reg.ofNibble d.x) d.nn)
  | 0x8#4 => decodeFamily8 d
  | 0x9#4 => decodeFamily9 d
  | 0xA#4 => some (.ldI d.nnn)
  | 0xB#4 => some (.jpV0 d.nnn)
  | 0xC#4 => some (.rnd (Reg.ofNibble d.x) d.nn)
  | 0xD#4 => some (.drw (Reg.ofNibble d.x) (Reg.ofNibble d.y) d.n)
  | 0xE#4 => decodeFamilyE d
  | 0xF#4 => decodeFamilyF d
  | _ => none

/-- The instruction of a 16-bit word, or none for the illegal words of R57. -/
def decodeWord (w : Word) : Option Instr := decodeFields (Fields.ofWord w)

/-- Two bytes as a big-endian word: the byte at the lower address is bits 15:8 (R31). -/
def wordOfBytes (hi lo : Byte) : Word := hi.setWidth 16 <<< 8 ||| lo.setWidth 16

/-- The byte of a word that stands at the lower address (R31). -/
def highByte (w : Word) : Byte := w.extractLsb' 8 8

/-- The byte of a word that stands at the higher address (R31). -/
def lowByte (w : Word) : Byte := w.extractLsb' 0 8

/-- What decoding a list of bytes answers. -/
inductive DecodeResult where
  /-- An instruction, and the bytes after it. -/
  | instr (i : Instr) (rest : List Byte)
  /-- The first word is none of the 34 instructions (R57). -/
  | unknownOpcode (w : Word)
  /-- Fewer than the two bytes of an instruction word (R50). -/
  | truncated
  deriving DecidableEq, Repr

/-- Decode the instruction at the front of a list of bytes. -/
def decode : List Byte → DecodeResult
  | hi :: lo :: rest =>
    match decodeWord (wordOfBytes hi lo) with
    | some i => .instr i rest
    | none => .unknownOpcode (wordOfBytes hi lo)
  | _ => .truncated

/-- Format NNN (R52): family, address. -/
def packNNN (f : Nibble) (nnn : Addr12) : Word := f.setWidth 16 <<< 12 ||| nnn.setWidth 16

/-- Format XNN (R52): family, register, byte. -/
def packXNN (f : Nibble) (x : Reg) (nn : Byte) : Word :=
  f.setWidth 16 <<< 12 ||| x.toNibble.setWidth 16 <<< 8 ||| nn.setWidth 16

/-- Formats XY and XYN (R52): family, two registers, a nibble that is the secondary opcode or N. -/
def packXYN (f : Nibble) (x y : Reg) (n : Nibble) : Word :=
  f.setWidth 16 <<< 12 ||| x.toNibble.setWidth 16 <<< 8 ||| y.toNibble.setWidth 16 <<< 4 |||
    n.setWidth 16

/-- The word of an instruction (Table 30-3). Format X is XNN with the secondary opcode as NN. -/
def encode : Instr → Word
  | .cls => 0x00E0#16
  | .ret => 0x00EE#16
  | .jp nnn => packNNN 0x1#4 nnn
  | .call nnn => packNNN 0x2#4 nnn
  | .seByte x nn => packXNN 0x3#4 x nn
  | .sneByte x nn => packXNN 0x4#4 x nn
  | .seReg x y => packXYN 0x5#4 x y 0x0#4
  | .ldByte x nn => packXNN 0x6#4 x nn
  | .addByte x nn => packXNN 0x7#4 x nn
  | .ldReg x y => packXYN 0x8#4 x y 0x0#4
  | .orReg x y => packXYN 0x8#4 x y 0x1#4
  | .andReg x y => packXYN 0x8#4 x y 0x2#4
  | .xorReg x y => packXYN 0x8#4 x y 0x3#4
  | .addReg x y => packXYN 0x8#4 x y 0x4#4
  | .sub x y => packXYN 0x8#4 x y 0x5#4
  | .shr x y => packXYN 0x8#4 x y 0x6#4
  | .subn x y => packXYN 0x8#4 x y 0x7#4
  | .shl x y => packXYN 0x8#4 x y 0xE#4
  | .sneReg x y => packXYN 0x9#4 x y 0x0#4
  | .ldI nnn => packNNN 0xA#4 nnn
  | .jpV0 nnn => packNNN 0xB#4 nnn
  | .rnd x nn => packXNN 0xC#4 x nn
  | .drw x y n => packXYN 0xD#4 x y n
  | .skp x => packXNN 0xE#4 x 0x9E#8
  | .sknp x => packXNN 0xE#4 x 0xA1#8
  | .ldVxDt x => packXNN 0xF#4 x 0x07#8
  | .ldVxK x => packXNN 0xF#4 x 0x0A#8
  | .ldDtVx x => packXNN 0xF#4 x 0x15#8
  | .ldStVx x => packXNN 0xF#4 x 0x18#8
  | .addIVx x => packXNN 0xF#4 x 0x1E#8
  | .ldFVx x => packXNN 0xF#4 x 0x29#8
  | .ldBVx x => packXNN 0xF#4 x 0x33#8
  | .ldMemVx x => packXNN 0xF#4 x 0x55#8
  | .ldVxMem x => packXNN 0xF#4 x 0x65#8

/-- An instruction as the two bytes that memory holds (R31). -/
def encodeBytes (i : Instr) : List Byte := [highByte (encode i), lowByte (encode i)]

/-- One row of Table 30-3: a word `w` is an instruction of the row iff `w & mask = pattern`. -/
structure OpcodeRow where
  mask : Word
  pattern : Word
  deriving DecidableEq, Repr

/-- The row of an instruction in Table 30-3. -/
def opcodeRow : Instr → OpcodeRow
  | .cls => ⟨0xFFFF#16, 0x00E0#16⟩
  | .ret => ⟨0xFFFF#16, 0x00EE#16⟩
  | .jp _ => ⟨0xF000#16, 0x1000#16⟩
  | .call _ => ⟨0xF000#16, 0x2000#16⟩
  | .seByte _ _ => ⟨0xF000#16, 0x3000#16⟩
  | .sneByte _ _ => ⟨0xF000#16, 0x4000#16⟩
  | .seReg _ _ => ⟨0xF00F#16, 0x5000#16⟩
  | .ldByte _ _ => ⟨0xF000#16, 0x6000#16⟩
  | .addByte _ _ => ⟨0xF000#16, 0x7000#16⟩
  | .ldReg _ _ => ⟨0xF00F#16, 0x8000#16⟩
  | .orReg _ _ => ⟨0xF00F#16, 0x8001#16⟩
  | .andReg _ _ => ⟨0xF00F#16, 0x8002#16⟩
  | .xorReg _ _ => ⟨0xF00F#16, 0x8003#16⟩
  | .addReg _ _ => ⟨0xF00F#16, 0x8004#16⟩
  | .sub _ _ => ⟨0xF00F#16, 0x8005#16⟩
  | .shr _ _ => ⟨0xF00F#16, 0x8006#16⟩
  | .subn _ _ => ⟨0xF00F#16, 0x8007#16⟩
  | .shl _ _ => ⟨0xF00F#16, 0x800E#16⟩
  | .sneReg _ _ => ⟨0xF00F#16, 0x9000#16⟩
  | .ldI _ => ⟨0xF000#16, 0xA000#16⟩
  | .jpV0 _ => ⟨0xF000#16, 0xB000#16⟩
  | .rnd _ _ => ⟨0xF000#16, 0xC000#16⟩
  | .drw _ _ _ => ⟨0xF000#16, 0xD000#16⟩
  | .skp _ => ⟨0xF0FF#16, 0xE09E#16⟩
  | .sknp _ => ⟨0xF0FF#16, 0xE0A1#16⟩
  | .ldVxDt _ => ⟨0xF0FF#16, 0xF007#16⟩
  | .ldVxK _ => ⟨0xF0FF#16, 0xF00A#16⟩
  | .ldDtVx _ => ⟨0xF0FF#16, 0xF015#16⟩
  | .ldStVx _ => ⟨0xF0FF#16, 0xF018#16⟩
  | .addIVx _ => ⟨0xF0FF#16, 0xF01E#16⟩
  | .ldFVx _ => ⟨0xF0FF#16, 0xF029#16⟩
  | .ldBVx _ => ⟨0xF0FF#16, 0xF033#16⟩
  | .ldMemVx _ => ⟨0xF0FF#16, 0xF055#16⟩
  | .ldVxMem _ => ⟨0xF0FF#16, 0xF065#16⟩

/-- A word matches a row of Table 30-3. -/
def OpcodeRow.admits (r : OpcodeRow) (w : Word) : Bool := w &&& r.mask == r.pattern

/-- The instruction this decoder reads from an opcode-table word of `nbits` bits: bit 0 is the least
significant bit of the one 16-bit word, whose bytes memory holds high byte first (R31). -/
def decodeTableWord (nbits w : Nat) : Option Instr :=
  let word : Word := BitVec.ofNat 16 (w % 2 ^ nbits)
  match decode [highByte word, lowByte word] with
  | .instr i _ => some i
  | .unknownOpcode _ => none
  | .truncated => none

end Sys2Proof
end

