-- ==== Sys2Proof/Config.lean ====
section
/-! DEFINITION. The parameters of 00_scope.md R5 (Table 00-1): the fixed ones as numbers, the open
one (`FONT_BASE`) and the free input (`rnd`) as constants without a body, of which nothing can be
proved that does not hold for every value. -/

namespace Sys2Proof.Config

/-- `MEM_SIZE`: bytes of memory (R5, R20). -/
abbrev memSize : Nat := 4096

/-- `LOAD_ADDR`: where a program image is loaded, and the PC after reset (R5, R231). -/
abbrev loadAddr : Nat := 0x200

/-- `GLYPH_BYTES`: bytes of one font glyph (R5, R21). -/
abbrev glyphBytes : Nat := 5

/-- `FONT_BASE`: the address of glyph 0. OPEN in the spec (R5, 92_eei_decisions.md D13): any
value with `FONT_BASE + 80 <= 0x200`, that is 0 to 0x1B0, fixed for the run. It has no body, so a
claim holds for every admissible value. Safe (notes/assumptions/1.md). -/
opaque fontBase : Fin 0x1B1

/-- The byte the environment supplies for the `k`-th execution of `RND` (R22, R140, R141): a free
value under no law, so it has no body. Safe (notes/assumptions/2.md). -/
opaque rnd : Nat → Byte

end Sys2Proof.Config
end

