-- ==== Sys2Proof/Machine/State.lean ====
section
/-! DEFINITION. The Machine State (10_state.md R10 to R24) as plain data, the five faults
(60_exceptions.md R190), the outcome of a cycle (R196), and reset (R24, R230). Three fields are the
model's own: the outcome and the fault log that R197 suggests, and the number of random bytes drawn. -/

namespace Sys2Proof.Machine

/-- The five faults (R190), with the information reported (R196, Table 60-1). -/
inductive Fault where
  /-- A program image of `length` bytes does not fit. Raised by the load operation alone, which then
  changes nothing (R191). A step never raises it. Safe: it is the spec's own outcome. -/
  | loadFault (length : Nat)
  /-- An access at or above 4096. Raised by the fetch when `pc > 4094` (`addr = pc`), and by
  `DRW`, `LD B, Vx`, `LD [I], Vx` and `LD Vx, [I]` (`addr = max(I, 4096)`). It aborts the cycle: nothing is
  written and every later cycle raises it again (R192), so it ends a step as `Host.Outcome.fault`. Safe
  (notes/assumptions/4.md). -/
  | addressFault (addr : Nat)
  /-- `RET` on an empty stack at `pc` (R193). A continuing fault: the step has a next state, which
  records it. Safe: it is the spec's own outcome. -/
  | stackUnderflow (pc : Word)
  /-- `CALL` with 16 return addresses on the stack, at `pc` (R194). A continuing fault, recorded in
  the next state. Safe: it is the spec's own outcome. -/
  | stackOverflow (pc : Word)
  /-- The illegal word `word` at `pc` (R195). A continuing fault, recorded in the next state. Safe: it
  is the spec's own outcome. -/
  | unknownOpcode (word : Word) (pc : Word)
  deriving DecidableEq, Repr

/-- Why a step has no meaning. Every instruction of this model has one, so no step is refused. -/
inductive Refusal where
  /-- No meaning yet for the instruction of this mnemonic. Raised by no arm of `exec` in this model.
  Safe: it would only stop a run. -/
  | notModelled (mnemonic : String)
  deriving DecidableEq, Repr

/-- The outcome of a cycle that the host receives (40_cycle.md R73, 60_exceptions.md R196). -/
inductive CycleOutcome where
  /-- The instruction completed. -/
  | ok
  /-- `LD Vx, K` found no key pressed: the instruction is retried in the next cycle. Not a fault. -/
  | blocked
  /-- A fault was reported. -/
  | fault (f : Fault)
  deriving DecidableEq, Repr

/-- The framebuffer: 32 rows of 64 one-bit cells (R18). -/
abbrev Framebuffer := Vector (Vector Bool 64) 32

/-- The 16 key flags, `true` for pressed (R19). -/
abbrev Keys := Vector Bool 16

/-- The bytes of memory that differ from what an unlisted address reads as, by rising address
(canonical form: `Memory.wf` in Ops.lean). -/
abbrev Memory := List Host.Cell

structure State where
  /-- V0 to VF (R11). -/
  v : Vector Byte 16
  /-- The index register I (R13). -/
  i : Word
  /-- The program counter (R14). -/
  pc : Word
  /-- The 16 slots of the call stack (R15). -/
  stack : Vector Word 16
  /-- `sp`: how many stack slots are in use, 0 to 16 (R15). -/
  sp : Fin 17
  /-- The delay timer DT (R16). -/
  dt : Byte
  /-- The sound timer ST (R17). -/
  st : Byte
  /-- The framebuffer (R18). -/
  fb : Framebuffer
  /-- The key state (R19), which only the host writes. -/
  keys : Keys
  /-- The 4096 bytes of memory (R20). -/
  mem : Memory
  /-- The model's own: the outcome of the last instruction or host operation (R73, R196). -/
  outcome : CycleOutcome
  /-- The model's own: every fault reported so far, oldest first, never cleared (R197). -/
  faultLog : List Fault
  /-- The model's own: how many random bytes have been drawn (R141). -/
  draws : Nat
  deriving DecidableEq, Repr

/-- The machine right after reset (R24 Table 10-3, R230): all zero except PC = 0x200 and the font,
which memory with nothing listed already holds. The reset values of the model's own three fields are
a DESIGN CHOICE (notes/assumptions/2.md and 3.md). -/
def State.reset : State where
  v := Vector.replicate 16 0#8
  i := 0#16
  pc := 0x200#16
  stack := Vector.replicate 16 0#16
  sp := 0
  dt := 0#8
  st := 0#8
  fb := Vector.replicate 32 (Vector.replicate 64 false)
  keys := Vector.replicate 16 false
  mem := []
  outcome := .ok
  faultLog := []
  draws := 0

end Sys2Proof.Machine
end

