-- ==== Sys2Proof/Machine/Font.lean ====
section
/-! DEFINITION. The font (10_state.md R21, Table 10-1) and what memory holds after reset (R20). -/

namespace Sys2Proof.Machine

/-- `FONT[0..79]`: 16 glyphs of 5 bytes, top row first (R21, Table 10-1). -/
def fontBytes : List Byte :=
  [0xF0#8, 0x90#8, 0x90#8, 0x90#8, 0xF0#8] ++ -- 0
  [0x20#8, 0x60#8, 0x20#8, 0x20#8, 0x70#8] ++ -- 1
  [0xF0#8, 0x10#8, 0xF0#8, 0x80#8, 0xF0#8] ++ -- 2
  [0xF0#8, 0x10#8, 0xF0#8, 0x10#8, 0xF0#8] ++ -- 3
  [0x90#8, 0x90#8, 0xF0#8, 0x10#8, 0x10#8] ++ -- 4
  [0xF0#8, 0x80#8, 0xF0#8, 0x10#8, 0xF0#8] ++ -- 5
  [0xF0#8, 0x80#8, 0xF0#8, 0x90#8, 0xF0#8] ++ -- 6
  [0xF0#8, 0x10#8, 0x20#8, 0x40#8, 0x40#8] ++ -- 7
  [0xF0#8, 0x90#8, 0xF0#8, 0x90#8, 0xF0#8] ++ -- 8
  [0xF0#8, 0x90#8, 0xF0#8, 0x10#8, 0xF0#8] ++ -- 9
  [0xF0#8, 0x90#8, 0xF0#8, 0x90#8, 0x90#8] ++ -- A
  [0xE0#8, 0x90#8, 0xE0#8, 0x90#8, 0xE0#8] ++ -- B
  [0xF0#8, 0x80#8, 0x80#8, 0x80#8, 0xF0#8] ++ -- C
  [0xE0#8, 0x90#8, 0x90#8, 0x90#8, 0xE0#8] ++ -- D
  [0xF0#8, 0x80#8, 0xF0#8, 0x80#8, 0xF0#8] ++ -- E
  [0xF0#8, 0x80#8, 0xF0#8, 0x80#8, 0x80#8]    -- F

/-- What memory holds at `a` after reset (R20): the font from `FONT_BASE` on, which lies below 0x200
(R5), and 0 elsewhere. It is also what an address with no entry reads as. -/
def Memory.resetByte (a : Nat) : Byte :=
  if a < Config.loadAddr then
    if Config.fontBase.val ≤ a then fontBytes.getD (a - Config.fontBase.val) 0#8 else 0#8
  else 0#8

end Sys2Proof.Machine
end

