-- ==== Sys2Proof/Machine/Ops.lean ====
section
/-! DEFINITION. The named operations over memory and the other state (10_state.md, 20_memory.md,
40_cycle.md R72, R74), and the one operation by which a continuing fault is taken (60_exceptions.md
R190). There is no return from a fault and no trap entry: a fault saves nothing and goes nowhere
(R199, R200). -/

namespace Sys2Proof.Machine

/-- How a meaning ends: `Host.Outcome` with this machine's reasons. -/
abbrev Result := Host.Outcome State Fault Refusal

/-! ### Memory (R20, R30, R35) -/

/-- The byte at an address. Callers check the range first (R36); beyond it the function is total and
answers 0 (notes/assumptions/5.md). -/
def Memory.read : Memory → Nat → Byte
  | [], a => Memory.resetByte a
  | (k, b) :: rest, a => if k = a then b else Memory.read rest a

/-- Memory with byte `b` at address `a`. The list stays in canonical form: a byte equal to the reset
byte is not listed. -/
def Memory.write : Memory → Nat → Byte → Memory
  | [], a, b => if b = Memory.resetByte a then [] else [(a, b)]
  | (k, c) :: rest, a, b =>
    if a < k then
      if b = Memory.resetByte a then (k, c) :: rest else (a, b) :: (k, c) :: rest
    else if a = k then
      if b = Memory.resetByte a then rest else (a, b) :: rest
    else (k, c) :: Memory.write rest a b

/-- The list is canonical from address `lo` on: strictly rising addresses below 4096, and no entry
equal to the reset byte of its address. -/
def Memory.wfFrom : Nat → Memory → Bool
  | _, [] => true
  | lo, (k, b) :: rest =>
    decide (lo ≤ k) && decide (k < Config.memSize) && decide (b ≠ Memory.resetByte k) &&
      Memory.wfFrom (k + 1) rest

/-- The canonical form of memory. -/
def Memory.wf (m : Memory) : Bool := Memory.wfFrom 0 m

/-- The bytes written to `a`, `a + 1` and so on, in ascending order (R31, R174, R175, R234). -/
def Memory.writeBytes : Memory → Nat → List Byte → Memory
  | m, _, [] => m
  | m, a, b :: bs => Memory.writeBytes (m.write a b) (a + 1) bs

/-- The `n` bytes at `a`, `a + 1` and so on (R7 `MemRead`, R31). -/
def Memory.readBytes : Memory → Nat → Nat → List Byte
  | _, _, 0 => []
  | m, a, n + 1 => m.read a :: Memory.readBytes m (a + 1) n

/-! ### Registers, timers, framebuffer, keys -/

/-- `V[r]` (R11). -/
def State.getV (s : State) (r : Reg) : Byte := s.v.get r

/-- `V[r] <- b` (R11). -/
def State.setV (s : State) (r : Reg) (b : Byte) : State := { s with v := s.v.set r.val b }

/-- The registers V0 to Vx take the values `f`, and the others keep theirs (R176). -/
def State.setVUpTo (s : State) (x : Reg) (f : Reg → Byte) : State :=
  { s with v := Vector.ofFn fun j : Reg => if j ≤ x then f j else s.v.get j }

/-- `I <- a` (R13). -/
def State.setI (s : State) (a : Word) : State := { s with i := a }

/-- `DT <- b` (R16). -/
def State.setDt (s : State) (b : Byte) : State := { s with dt := b }

/-- `ST <- b` (R17). -/
def State.setSt (s : State) (b : Byte) : State := { s with st := b }

/-- Replace the framebuffer (R18). -/
def State.setFb (s : State) (fb : Framebuffer) : State := { s with fb := fb }

/-- Replace the key flags: the host alone does so (R19, R211). -/
def State.setKeys (s : State) (k : Keys) : State := { s with keys := k }

/-- Store bytes from address `a` upward (R20). -/
def State.store (s : State) (a : Nat) (bs : List Byte) : State :=
  { s with mem := s.mem.writeBytes a bs }

/-- `fb[y][x]` (R18). -/
def Framebuffer.cell (fb : Framebuffer) (y : Fin 32) (x : Fin 64) : Bool := (fb.get y).get x

/-- `fb[y][x] <- fb[y][x] ^ 1` (R146). -/
def Framebuffer.flip (fb : Framebuffer) (y : Fin 32) (x : Fin 64) : Framebuffer :=
  fb.set y.val ((fb.get y).set x.val (!fb.cell y x))

/-- The framebuffer with every cell 0 (R145). -/
def Framebuffer.clear : Framebuffer := Vector.replicate 32 (Vector.replicate 64 false)

/-! ### The call stack (R15) -/

/-- Push, or none when all 16 slots are in use. -/
def State.push (s : State) (a : Word) : Option State :=
  if h : s.sp.val < 16 then
    some { s with stack := s.stack.set s.sp.val a, sp := ⟨s.sp.val + 1, by omega⟩ }
  else none

/-- Pop the newest entry, or none when the stack is empty. The slot keeps its content. -/
def State.pop (s : State) : Option (Word × State) :=
  if h : 0 < s.sp.val then
    some (s.stack[s.sp.val - 1]'(by omega), { s with sp := ⟨s.sp.val - 1, by omega⟩ })
  else none

/-! ### How an instruction ends (R74) -/

/-- The instruction completes with outcome `Ok` and PC at `target`: class (c), and the common part
of the other classes. -/
def State.complete (s : State) (target : Word) : State := { s with pc := target, outcome := .ok }

/-- Class (a): the default advance, `pc <- A + 2`. -/
def State.advance (s : State) : State := s.complete (s.pc + 2#16)

/-- Class (b): `pc <- A + 4` if the condition holds, else `pc <- A + 2`. -/
def State.skipIf (s : State) (c : Bool) : State :=
  s.complete (if c then s.pc + 4#16 else s.pc + 2#16)

/-- The blocked `LD Vx, K`: nothing is written and PC stays (R171). -/
def State.block (s : State) : State := { s with outcome := .blocked }

/-- Record a reported fault in the outcome and in the log (R197). -/
def State.report (s : State) (f : Fault) : State :=
  { s with outcome := .fault f, faultLog := s.faultLog ++ [f] }

/-- Take a continuing fault (R190, R193 to R195): report it, `pc <- A + 2`, and nothing else. -/
def State.continueFault (s : State) (f : Fault) : State :=
  { s.report f with pc := s.pc + 2#16 }

/-! ### The tick (R72) -/

/-- `if t > 0 then t - 1`: a timer stops at 0. -/
def tickTimer (t : Byte) : Byte := if t = 0#8 then 0#8 else t - 1#8

/-- Both timers tick. -/
def State.tick (s : State) : State := { s with dt := tickTimer s.dt, st := tickTimer s.st }

end Sys2Proof.Machine
end

