-- ==== Sys2Proof/Machine/Operands.lean ====
section
/-! DEFINITION. Operand forms: zero extension of immediates (30_encoding.md R53), the one data
addressing mode and its range check (20_memory.md R36, 47_timer_memory.md R177), the low-nibble
indexes (R132, R162), the BCD digits (R174), the key wait's choice (R171) and the random draw (R141). -/

namespace Sys2Proof.Machine

/-- `zext_16(NNN)` (R53). -/
def addrOfNNN (nnn : Addr12) : Word := nnn.setWidth 16

/-- `zext_16(v)` of a byte (R53, R97, R131). -/
def zextByte (b : Byte) : Word := b.setWidth 16

/-- The instruction accesses the `n` addresses `I .. I + n - 1`, formed without wrapping: if `n ≥ 1` and
the range reaches 4096 the cycle is aborted with the lowest address outside memory, before anything is
written; otherwise the instruction goes on from the address `I` (R36, R192). -/
def withRange (s : State) (n : Nat) (go : Nat → Result) : Result :=
  if 1 ≤ n ∧ Config.memSize ≤ s.i.toNat + n - 1 then
    .fault (.addressFault (max s.i.toNat Config.memSize))
  else go s.i.toNat

/-- The key a register selects: its low four bits (R162). -/
def keyIndex (b : Byte) : Fin 16 := Fin.ofNat 16 (b &&& 0x0F#8).toNat

/-- `key[k]` for the key a register selects (R160 to R162). -/
def State.keyOf (s : State) (r : Reg) : Bool := s.keys.get (keyIndex (s.getV r))

/-- The address of the glyph that a register's low nibble names:
`FONT_BASE + 5 * (v & 0x0F)` (R132). -/
def glyphAddr (b : Byte) : Word :=
  BitVec.ofNat 16 (Config.fontBase.val + Config.glyphBytes * (b &&& 0x0F#8).toNat)

/-- Hundreds, tens and ones of a byte, most significant first (R174). -/
def bcdDigits (b : Byte) : List Byte :=
  [BitVec.ofNat 8 (b.toNat / 100), BitVec.ofNat 8 (b.toNat / 10 % 10), BitVec.ofNat 8 (b.toNat % 10)]

/-- V0 to Vx as a list, in ascending order (R175). -/
def State.regsUpTo (s : State) (x : Reg) : List Byte := s.v.toList.take (x.val + 1)

/-- The pressed key of least index among those from `k` on, if any; `fuel` counts the keys left. -/
def lowestKeyFrom (keys : Keys) : (fuel k : Nat) → Option Nat
  | 0, _ => none
  | fuel + 1, k =>
    if keys.get (Fin.ofNat 16 k) then some k else lowestKeyFrom keys fuel (k + 1)

/-- The least index of a pressed key, or none when all 16 flags are 0 (R171). -/
def lowestKey (keys : Keys) : Option Nat := lowestKeyFrom keys 16 0

/-- The random byte of this execution of `RND` (R140, R141): a free value. -/
def State.rndByte (s : State) : Byte := Config.rnd s.draws

/-- The draw is consumed, so that the next execution of `RND` gets a fresh one (R141). -/
def State.consumeDraw (s : State) : State := { s with draws := s.draws + 1 }

end Sys2Proof.Machine
end

