-- ==== Sys2Proof/Machine/Flags.lean ====
section
/-! DEFINITION. VF as the flag (10_state.md R12): what each of the five arithmetic instructions puts
there (42_alu.md R110, R117 to R121), and the order of result and flag (40_cycle.md R77). The sixth
flag, the collision of `DRW`, is computed with the blit (Display.lean). -/

namespace Sys2Proof.Machine

/-- A flag as a byte: VF only ever receives 0 or 1 (R12). -/
def flagByte (b : Bool) : Byte := if b then 1#8 else 0#8

/-- Carry out of `a + b`: the unsigned sum exceeds 255 (R117). -/
def carryFlag (a b : Byte) : Bool := decide (255 < a.toNat + b.toNat)

/-- No borrow in `a - b`: `a ≥ b` (R118, R120). -/
def noBorrowFlag (a b : Byte) : Bool := decide (b.toNat ≤ a.toNat)

/-- The bit a right shift by one puts out: bit 0 (R119). -/
def shiftedOutRight (a : Byte) : Bool := a.getLsbD 0

/-- The bit a left shift by one puts out: bit 7 (R121). -/
def shiftedOutLeft (a : Byte) : Bool := a.getLsbD 7

/-- The result is written to `V[x]` first and the flag to VF second, so that with x = 15 the flag
is what remains (R77). -/
def State.setResultAndFlag (s : State) (x : Reg) (result : Byte) (flag : Bool) : State :=
  (s.setV x result).setV Reg.vf (flagByte flag)

end Sys2Proof.Machine
end

