-- ==== Sys2Proof/Machine/Cycle.lean ====
section
/-! DEFINITION. The cycle driver (40_cycle.md R70 to R73): fetch, decode, execute, tick. The executor
is an argument, so that Step.lean only applies this file's `runCycle` to `exec`. -/

namespace Sys2Proof.Machine

/-- Both bytes of the word at PC lie inside memory (R32, R71). -/
def State.canFetch (s : State) : Bool := decide (s.pc.toNat ≤ 4094)

/-- The word at PC, big-endian (R31, R71). -/
def State.fetchWord (s : State) : Word :=
  wordOfBytes (s.mem.read s.pc.toNat) (s.mem.read (s.pc.toNat + 1))

/-- An illegal word (R76, R195): UnknownOpcode, which continues. -/
def execIllegal (w : Word) (s : State) : Result :=
  .next (s.continueFault (.unknownOpcode w s.pc))

/-- The timers tick after every instruction that has a next state (`Ok`, `Blocked` or a continuing
fault), and not in an aborted cycle (R72). -/
def tickAfter : Result → Result
  | .next s => .next s.tick
  | .fault f => .fault f
  | .refused r => .refused r

/-- One cycle (R70): the fetch check comes first, then decoding, then the instruction (R198). -/
def runCycle (execute : Instr → State → Result) (s : State) : Result :=
  if s.canFetch then
    match decodeWord s.fetchWord with
    | some i => tickAfter (execute i s)
    | none => tickAfter (execIllegal s.fetchWord s)
  else .fault (.addressFault s.pc.toNat)

/-- The state with an instruction word at PC, high byte first, where both bytes fit in memory;
otherwise the state as it is, whose fetch faults (R32; notes/assumptions/8.md). -/
def State.placeWord (s : State) (w : Word) : State :=
  if s.canFetch then s.store s.pc.toNat [highByte w, lowByte w] else s

end Sys2Proof.Machine
end

