-- ==== Sys2Proof/Machine/Alu.lean ====
section
/-! DEFINITION. Register load and arithmetic (42_alu.md). All arithmetic is on unsigned bytes and
reduced modulo 256 (R110); the operands are those of the state before the instruction (40_cycle.md
R75); all are class (a) and none can fault. -/

namespace Sys2Proof.Machine

/-- `LD Vx, byte` (R111). -/
def execLdByte (x : Reg) (nn : Byte) (s : State) : Result := .next (s.setV x nn).advance

/-- `ADD Vx, byte` (R112): no flag. -/
def execAddByte (x : Reg) (nn : Byte) (s : State) : Result :=
  .next (s.setV x (s.getV x + nn)).advance

/-- `LD Vx, Vy` (R113). -/
def execLdReg (x y : Reg) (s : State) : Result := .next (s.setV x (s.getV y)).advance

/-- `OR Vx, Vy` (R114): no flag. -/
def execOrReg (x y : Reg) (s : State) : Result :=
  .next (s.setV x (s.getV x ||| s.getV y)).advance

/-- `AND Vx, Vy` (R115): no flag. -/
def execAndReg (x y : Reg) (s : State) : Result :=
  .next (s.setV x (s.getV x &&& s.getV y)).advance

/-- `XOR Vx, Vy` (R116): no flag. -/
def execXorReg (x y : Reg) (s : State) : Result :=
  .next (s.setV x (s.getV x ^^^ s.getV y)).advance

/-- `ADD Vx, Vy` (R117): VF is the carry. -/
def execAddReg (x y : Reg) (s : State) : Result :=
  .next (s.setResultAndFlag x (s.getV x + s.getV y) (carryFlag (s.getV x) (s.getV y))).advance

/-- `SUB Vx, Vy` (R118): VF is 1 iff `Vx ≥ Vy`. -/
def execSub (x y : Reg) (s : State) : Result :=
  .next (s.setResultAndFlag x (s.getV x - s.getV y) (noBorrowFlag (s.getV x) (s.getV y))).advance

/-- `SHR Vx` (R119): in place, the Y field is ignored. -/
def execShr (x _y : Reg) (s : State) : Result :=
  .next (s.setResultAndFlag x (s.getV x >>> 1) (shiftedOutRight (s.getV x))).advance

/-- `SUBN Vx, Vy` (R120): `Vy - Vx`, and VF is 1 iff `Vy ≥ Vx`. -/
def execSubn (x y : Reg) (s : State) : Result :=
  .next (s.setResultAndFlag x (s.getV y - s.getV x) (noBorrowFlag (s.getV y) (s.getV x))).advance

/-- `SHL Vx` (R121): in place, the Y field is ignored. -/
def execShl (x _y : Reg) (s : State) : Result :=
  .next (s.setResultAndFlag x (s.getV x <<< 1) (shiftedOutLeft (s.getV x))).advance

end Sys2Proof.Machine
end

