-- ==== Sys2Proof/Machine/ControlFlow.lean ====
section
/-! DEFINITION. Control flow (41_control_flow.md). A transfer checks nothing about its target: any
consequence comes at the next fetch (R90). No instruction here writes a general register. -/

namespace Sys2Proof.Machine

/-- `RET` (R91): pop the stack into PC; on an empty stack StackUnderflow, which continues. -/
def execRet (s : State) : Result :=
  match s.pop with
  | some (target, s') => .next (s'.complete target)
  | none => .next (s.continueFault (.stackUnderflow s.pc))

/-- `JP addr` (R92). -/
def execJp (nnn : Addr12) (s : State) : Result := .next (s.complete (addrOfNNN nnn))

/-- `CALL addr` (R93): push the address of the next instruction and jump; on a full stack
StackOverflow, which continues. -/
def execCall (nnn : Addr12) (s : State) : Result :=
  match s.push (s.pc + 2#16) with
  | some s' => .next (s'.complete (addrOfNNN nnn))
  | none => .next (s.continueFault (.stackOverflow s.pc))

/-- `SE Vx, byte` (R94). -/
def execSeByte (x : Reg) (nn : Byte) (s : State) : Result := .next (s.skipIf (s.getV x == nn))

/-- `SNE Vx, byte` (R95). -/
def execSneByte (x : Reg) (nn : Byte) (s : State) : Result := .next (s.skipIf (s.getV x != nn))

/-- `SE Vx, Vy` (R96). -/
def execSeReg (x y : Reg) (s : State) : Result := .next (s.skipIf (s.getV x == s.getV y))

/-- `SNE Vx, Vy` (R98). -/
def execSneReg (x y : Reg) (s : State) : Result := .next (s.skipIf (s.getV x != s.getV y))

/-- `JP V0, addr` (R97): always V0, and the sum is kept in full. -/
def execJpV0 (nnn : Addr12) (s : State) : Result :=
  .next (s.complete (addrOfNNN nnn + zextByte (s.getV 0)))

end Sys2Proof.Machine
end

