-- ==== Sys2Proof/Machine/Display.lean ====
section
/-! DEFINITION. Clear and the sprite blit (45_display.md), the blit pixel by pixel in the order of
R146's pseudocode. -/

namespace Sys2Proof.Machine

/-- A blit in progress: the framebuffer so far, and whether a cell has gone from 1 to 0. -/
structure Blit where
  fb : Framebuffer
  collision : Bool
  deriving DecidableEq, Repr

/-- One set pixel at column `x`, row `y`, both reduced modulo the framebuffer's size (R146). -/
def Blit.plot (acc : Blit) (x y : Nat) : Blit :=
  { fb := acc.fb.flip (Fin.ofNat 32 y) (Fin.ofNat 64 x)
    collision := acc.collision || acc.fb.cell (Fin.ofNat 32 y) (Fin.ofNat 64 x) }

/-- The columns `col .. col + n - 1` of sprite byte `b` in row `y`; bit 7 is column 0 (R146). -/
def Blit.drawColumns (b : Byte) (x0 y : Nat) : (n col : Nat) → Blit → Blit
  | 0, _, acc => acc
  | n + 1, col, acc =>
    Blit.drawColumns b x0 y n (col + 1)
      (if b.getLsbD (7 - col) then acc.plot (x0 + col) y else acc)

/-- The sprite rows, one byte each, from row number `row` on (R146). -/
def Blit.drawRows (x0 y0 : Nat) : List Byte → Nat → Blit → Blit
  | [], _, acc => acc
  | b :: bs, row, acc =>
    Blit.drawRows x0 y0 bs (row + 1) (Blit.drawColumns b x0 (y0 + row) 8 0 acc)

/-- The whole sprite drawn with its top left corner at (`x0`, `y0`), no collision so far (R146). -/
def drawSprite (fb : Framebuffer) (x0 y0 : Nat) (sprite : List Byte) : Blit :=
  Blit.drawRows x0 y0 sprite 0 ⟨fb, false⟩

/-- `CLS` (R145): only the framebuffer and PC change. -/
def execCls (s : State) : Result := .next (s.setFb Framebuffer.clear).advance

/-- `DRW Vx, Vy, nibble` (R146): the coordinates are read before VF is written (R75), and VF is always
written. -/
def execDrw (x y : Reg) (n : Nibble) (s : State) : Result :=
  withRange s n.toNat fun base =>
    let blit := drawSprite s.fb (s.getV x).toNat (s.getV y).toNat (s.mem.readBytes base n.toNat)
    .next ((s.setFb blit.fb).setV Reg.vf (flagByte blit.collision)).advance

end Sys2Proof.Machine
end

