-- ==== Sys2Proof/Machine/Index.lean ====
section
/-! DEFINITION. The index register (43_index.md). I is never range-checked here; no flag is written. -/

namespace Sys2Proof.Machine

/-- `LD I, addr` (R130). -/
def execLdI (nnn : Addr12) (s : State) : Result := .next (s.setI (addrOfNNN nnn)).advance

/-- `ADD I, Vx` (R131): modulo 65536. -/
def execAddIVx (x : Reg) (s : State) : Result := .next (s.setI (s.i + zextByte (s.getV x))).advance

/-- `LD F, Vx` (R132). -/
def execLdFVx (x : Reg) (s : State) : Result := .next (s.setI (glyphAddr (s.getV x))).advance

end Sys2Proof.Machine
end

