-- ==== Sys2Proof/Machine/KeyQuery.lean ====
section
/-! DEFINITION. The key query instructions (46_keys.md): class (b), on the key state at the start of
the cycle. -/

namespace Sys2Proof.Machine

/-- `SKP Vx` (R160): skip if the key is pressed. -/
def execSkp (x : Reg) (s : State) : Result := .next (s.skipIf (s.keyOf x))

/-- `SKNP Vx` (R161): skip if the key is not pressed. -/
def execSknp (x : Reg) (s : State) : Result := .next (s.skipIf (!s.keyOf x))

end Sys2Proof.Machine
end

