-- ==== Sys2Proof/Machine/Random.lean ====
section
/-! DEFINITION. The random number instruction (44_random.md). -/

namespace Sys2Proof.Machine

/-- `RND Vx, byte` (R140): `V[x] <- rnd & NN`, and the draw is consumed (R141). -/
def execRnd (x : Reg) (nn : Byte) (s : State) : Result :=
  .next (s.consumeDraw.setV x (s.rndByte &&& nn)).advance

end Sys2Proof.Machine
end

