-- ==== Sys2Proof/Machine/TimerMemory.lean ====
section
/-! DEFINITION. Timers, key wait and memory block transfers (47_timer_memory.md). I is never changed;
the three memory instructions check their whole range before they write anything (20_memory.md R36). -/

namespace Sys2Proof.Machine

/-- `LD Vx, DT` (R170): the value before this cycle's tick. -/
def execLdVxDt (x : Reg) (s : State) : Result := .next (s.setV x s.dt).advance

/-- `LD Vx, K` (R171): blocked while no key is pressed, else the least index pressed. -/
def execLdVxK (x : Reg) (s : State) : Result :=
  match lowestKey s.keys with
  | none => .next s.block
  | some k => .next (s.setV x (BitVec.ofNat 8 k)).advance

/-- `LD DT, Vx` (R172). -/
def execLdDtVx (x : Reg) (s : State) : Result := .next (s.setDt (s.getV x)).advance

/-- `LD ST, Vx` (R173). -/
def execLdStVx (x : Reg) (s : State) : Result := .next (s.setSt (s.getV x)).advance

/-- `LD B, Vx` (R174): hundreds, tens and ones at I, I + 1 and I + 2. -/
def execLdBVx (x : Reg) (s : State) : Result :=
  withRange s 3 fun base => .next (s.store base (bcdDigits (s.getV x))).advance

/-- `LD [I], Vx` (R175): V0 to Vx at I, I + 1 and so on. -/
def execLdMemVx (x : Reg) (s : State) : Result :=
  withRange s (x.val + 1) fun base => .next (s.store base (s.regsUpTo x)).advance

/-- `LD Vx, [I]` (R176): V0 to Vx from I, I + 1 and so on. -/
def execLdVxMem (x : Reg) (s : State) : Result :=
  withRange s (x.val + 1) fun base =>
    .next (s.setVUpTo x fun j => s.mem.read (base + j.val)).advance

end Sys2Proof.Machine
end

