-- ==== Sys2Proof/Machine/Step.lean ====
section
/-! DEFINITION. The step: one cycle of the core (40_cycle.md R70) with this machine's executor. -/

namespace Sys2Proof.Machine

/-- One cycle (R70). -/
def step (s : State) : Host.Outcome State Fault Refusal := runCycle exec s

/-- The state with an opcode-table word of `nbits` bits at PC, where the next step fetches it. -/
def State.withFetchWord (s : State) (nbits w : Nat) : State :=
  s.placeWord (BitVec.ofNat 16 (w % 2 ^ nbits))

end Sys2Proof.Machine
end

