-- ==== Sys2Proof/Machine/Transactions.lean ====
section
/-! DEFINITION. The host's six transactions (60_exceptions.md R214, Table 60-2), each wholly between
cycles or a cycle itself (20_memory.md R45). A sequence of them is a run of the core under its host. -/

namespace Sys2Proof.Machine

/-- The numeric status of an outcome (R196, Table 60-1). -/
def CycleOutcome.code : CycleOutcome → Nat
  | .ok => 0
  | .fault (.loadFault _) => 1
  | .fault (.addressFault _) => 2
  | .fault (.stackUnderflow _) => 3
  | .fault (.stackOverflow _) => 4
  | .fault (.unknownOpcode _ _) => 5
  | .blocked => 6

/-- The load operation (70_reset_and_hazards.md R234): an image that does not fit from 0x200 on is
refused with LoadFault and nothing changes (R191); otherwise its bytes are copied to 0x200 upward and
no other state of the core changes. -/
def State.load (s : State) (image : List Byte) : Result :=
  if Config.memSize < Config.loadAddr + image.length then .fault (.loadFault image.length)
  else .next { s.store Config.loadAddr image with outcome := .ok }

/-- Reset at any time between cycles (R232): all state of the core returns to Table 10-3. The model's
fault log is never cleared (R197) and its count of draws goes on (R141). -/
def State.resetAgain (s : State) : State :=
  { State.reset with faultLog := s.faultLog, draws := s.draws }

/-- The sound output, `ST != 0` (R212). -/
def State.sound (s : State) : Bool := s.st != 0#8

/-- What the host can do (Table 60-2). `step` draws its random byte from `Config.rnd` (R213). -/
inductive Transaction where
  | reset
  | load (image : List Byte)
  | setKeys (k : Keys)
  | step
  | readFramebuffer
  | readSound
  deriving DecidableEq, Repr

/-- What the host gets back (Table 60-2). -/
inductive Response where
  /-- Nothing. -/
  | nothing
  /-- The outcome of a load or of a cycle (Table 60-1). -/
  | outcome (o : CycleOutcome)
  /-- The 2048 framebuffer bits. -/
  | framebuffer (fb : Framebuffer)
  /-- `ST != 0`. -/
  | sound (on : Bool)
  /-- The step had no meaning for an instruction; this model never answers so. -/
  | refused (r : Refusal)
  deriving DecidableEq, Repr

/-- An operation's result as the host sees it. A fault that ends the operation leaves the core as it
was (R191, R192); the model's log records it (R197). -/
def State.answer (s : State) : Result → State × Response
  | .next s' => (s', .outcome s'.outcome)
  | .fault f => (s.report f, .outcome (.fault f))
  | .refused r => (s, .refused r)

/-- One host transaction (Table 60-2). -/
def State.transact (s : State) : Transaction → State × Response
  | .reset => (s.resetAgain, .nothing)
  | .load image => s.answer (s.load image)
  | .setKeys k => (s.setKeys k, .nothing)
  | .step => s.answer (Sys2Proof.Machine.step s)
  | .readFramebuffer => (s, .framebuffer s.fb)
  | .readSound => (s, .sound s.sound)

/-- A sequence of host transactions (R214: in any order and any number). -/
def State.session : State → List Transaction → State
  | s, [] => s
  | s, t :: ts => State.session (s.transact t).1 ts

end Sys2Proof.Machine
end

