-- ==== Sys2Proof/Safety.lean ====
section
/-! DEFINITION. The terms claims are stated in: the parts of the core's state and what it means that
all but some are unchanged (10_state.md R25), the invariant of the machine, and the conventional end
of a run (70_reset_and_hazards.md R246). -/

namespace Sys2Proof.Machine

/-- A piece of the core's state, apart from PC (10_state.md R10, Table 10-3). -/
inductive Part where
  | v (r : Reg)
  | i
  | stackSlot (k : Fin 16)
  | sp
  | dt
  | st
  | cell (y : Fin 32) (x : Fin 64)
  | key (k : Fin 16)
  | byte (a : Nat)
  deriving DecidableEq, Repr

/-- The part is the same in both states. -/
def Part.Kept (s t : State) : Part → Prop
  | .v r => t.getV r = s.getV r
  | .i => t.i = s.i
  | .stackSlot k => t.stack.get k = s.stack.get k
  | .sp => t.sp = s.sp
  | .dt => t.dt = s.dt
  | .st => t.st = s.st
  | .cell y x => t.fb.cell y x = s.fb.cell y x
  | .key k => t.keys.get k = s.keys.get k
  | .byte a => t.mem.read a = s.mem.read a

/-- The frame: every part of the core's state that is not in `changed` is the same in both states.
PC is no part, since every instruction writes it and every statement says what it becomes; the
model's own outcome, fault log and count of draws are no parts of the core (R197, R22). -/
def Frame (s t : State) (changed : List Part) : Prop := ∀ p, p ∉ changed → p.Kept s t

/-- The bytes `base .. base + n - 1`. -/
def bytesFrom (base n : Nat) : List Part := (List.range n).map fun k => .byte (base + k)

/-- The registers V0 to Vx. -/
def regsTo (x : Reg) : List Part := (List.range (x.val + 1)).map fun k => .v (Fin.ofNat 16 k)

/-- All 2048 cells of the framebuffer. -/
def allCells : List Part :=
  (List.finRange 32).flatMap fun y => (List.finRange 64).map fun x => .cell y x

/-- What each instruction may write besides PC (R25, Table 10-2). -/
def writeSet (s : State) : Instr → List Part
  | .cls => allCells
  | .ret => [.sp]
  | .jp _ => []
  | .call _ => [.stackSlot (Fin.ofNat 16 s.sp.val), .sp]
  | .seByte _ _ => []
  | .sneByte _ _ => []
  | .seReg _ _ => []
  | .ldByte x _ => [.v x]
  | .addByte x _ => [.v x]
  | .ldReg x _ => [.v x]
  | .orReg x _ => [.v x]
  | .andReg x _ => [.v x]
  | .xorReg x _ => [.v x]
  | .addReg x _ => [.v x, .v 15]
  | .sub x _ => [.v x, .v 15]
  | .shr x _ => [.v x, .v 15]
  | .subn x _ => [.v x, .v 15]
  | .shl x _ => [.v x, .v 15]
  | .sneReg _ _ => []
  | .ldI _ => [.i]
  | .jpV0 _ => []
  | .rnd x _ => [.v x]
  | .drw _ _ _ => .v 15 :: allCells
  | .skp _ => []
  | .sknp _ => []
  | .ldVxDt x => [.v x]
  | .ldVxK x => [.v x]
  | .ldDtVx _ => [.dt]
  | .ldStVx _ => [.st]
  | .addIVx _ => [.i]
  | .ldFVx _ => [.i]
  | .ldBVx _ => bytesFrom s.i.toNat 3
  | .ldMemVx x => bytesFrom s.i.toNat (x.val + 1)
  | .ldVxMem x => regsTo x

/-- Cell `fb[y][x]` is covered by a 1 bit of the `n`-row sprite at address `base`, drawn at column `x0`
and row `y0` (45_display.md R147(c): the mask). -/
def Covers (m : Memory) (base n x0 y0 : Nat) (y : Fin 32) (x : Fin 64) : Prop :=
  ∃ row col, row < n ∧ col < 8 ∧ (m.read (base + row)).getLsbD (7 - col) = true ∧
    (x0 + col) % 64 = x.val ∧ (y0 + row) % 32 = y.val

/-- PC never exceeds 0x10FE (10_state.md R14). -/
abbrev State.PcBounded (s : State) : Prop := s.pc.toNat ≤ 0x10FE

/-- Every return address on the stack is a value 2 to 4096 (41_control_flow.md R91). -/
abbrev State.StackBounded (s : State) : Prop :=
  ∀ k : Fin 16, k.val < s.sp.val → 2 ≤ (s.stack.get k).toNat ∧ (s.stack.get k).toNat ≤ 4096

/-- The invariant of the machine: memory is in canonical form, and PC and the return addresses are
values that the rules can produce. -/
abbrev State.Inv (s : State) : Prop := s.mem.wf = true ∧ s.PcBounded ∧ s.StackBounded

/-- The program has finished at address `h`: PC is there, the word there is a jump to itself, and both
timers are 0 (R246). -/
abbrev State.FinishedAt (s : State) (h : Addr12) : Prop :=
  s.pc = addrOfNNN h ∧ h.toNat ≤ 4094 ∧ s.fetchWord = encode (.jp h) ∧ s.dt = 0#8 ∧ s.st = 0#8

/-- No fault has been reported on this run: the premise R197 recommends for claims about programs. -/
abbrev State.NoFaultRecorded (s : State) : Prop := s.faultLog = []

/-- Two states of the core that differ at most in the model's own outcome and fault log. -/
abbrev State.SameCore (s t : State) : Prop :=
  { t with outcome := s.outcome, faultLog := s.faultLog } = s

/-- How many bytes of data memory an instruction accesses from address I on (20_memory.md R36). -/
def accessBytes : Instr → Nat
  | .drw _ _ n => n.toNat
  | .ldBVx _ => 3
  | .ldMemVx x => x.val + 1
  | .ldVxMem x => x.val + 1
  | .cls | .ret | .jp _ | .call _ | .seByte _ _ | .sneByte _ _ | .seReg _ _ | .ldByte _ _
  | .addByte _ _ | .ldReg _ _ | .orReg _ _ | .andReg _ _ | .xorReg _ _ | .addReg _ _ | .sub _ _
  | .shr _ _ | .subn _ _ | .shl _ _ | .sneReg _ _ | .ldI _ | .jpV0 _ | .rnd _ _ | .skp _ | .sknp _
  | .ldVxDt _ | .ldVxK _ | .ldDtVx _ | .ldStVx _ | .addIVx _ | .ldFVx _ => 0

/-- A word as the rules write it for format X: `m | X << 8`. -/
def wordX (m : Word) (x : Reg) : Word := m ||| BitVec.ofNat 16 x.val <<< 8

/-- A word as the rules write it for format XY: `m | X << 8 | Y << 4`. -/
def wordXY (m : Word) (x y : Reg) : Word :=
  m ||| BitVec.ofNat 16 x.val <<< 8 ||| BitVec.ofNat 16 y.val <<< 4

/-- A word as the rules write it for format XYN: `m | X << 8 | Y << 4 | N`. -/
def wordXYN (m : Word) (x y : Reg) (n : Nibble) : Word := wordXY m x y ||| n.setWidth 16

/-- A word as the rules write it for format XNN: `m | X << 8 | NN`. -/
def wordXNN (m : Word) (x : Reg) (nn : Byte) : Word :=
  m ||| BitVec.ofNat 16 x.val <<< 8 ||| nn.setWidth 16

/-- A word as the rules write it for format NNN: `m | NNN`. -/
def wordNNN (m : Word) (nnn : Addr12) : Word := m ||| nnn.setWidth 16

end Sys2Proof.Machine
end

