-- ==== Sys2Proof/Certificates/Slice0/Obligations.lean ====
section
/-! DEFINITION. The statements for the provers, from the spec's numbered rules. `Frame s t changed` says
that every part of the core's state outside `changed` is the same in `s` and `t` (Safety.lean). -/

open Sys2Proof Sys2Proof.Machine

/-! ### Reset, fetch, the step -/

/-- R230, R24 (Table 10-3), R20 (the 4096 bytes of memory), R21 (the font as one sequence: the spec's own
decision D14, notes/assumptions/9.md), R232: the state after reset, and that a reset from any state gives
it again (the spec's own decision D29). The model's own outcome, fault log and draw count, whose values
are named in notes/assumptions/2.md and 3.md, are no part of this claim: both sides of the last clause
have them overwritten. -/
def Obligations.ResetGivesEveryResetValue : Prop :=
  (∀ r, State.reset.getV r = 0#8) ∧ State.reset.i = 0#16 ∧ State.reset.pc = 0x200#16 ∧
  State.reset.sp.val = 0 ∧ (∀ k, State.reset.stack.get k = 0#16) ∧
  State.reset.dt = 0#8 ∧ State.reset.st = 0#8 ∧
  (∀ y x, State.reset.fb.cell y x = false) ∧ (∀ k, State.reset.keys.get k = false) ∧
  State.reset.mem.readBytes Config.fontBase.val 80 =
    [0xF0#8, 0x90#8, 0x90#8, 0x90#8, 0xF0#8, 0x20#8, 0x60#8, 0x20#8, 0x20#8, 0x70#8] ++
    [0xF0#8, 0x10#8, 0xF0#8, 0x80#8, 0xF0#8, 0xF0#8, 0x10#8, 0xF0#8, 0x10#8, 0xF0#8] ++
    [0x90#8, 0x90#8, 0xF0#8, 0x10#8, 0x10#8, 0xF0#8, 0x80#8, 0xF0#8, 0x10#8, 0xF0#8] ++
    [0xF0#8, 0x80#8, 0xF0#8, 0x90#8, 0xF0#8, 0xF0#8, 0x10#8, 0x20#8, 0x40#8, 0x40#8] ++
    [0xF0#8, 0x90#8, 0xF0#8, 0x90#8, 0xF0#8, 0xF0#8, 0x90#8, 0xF0#8, 0x10#8, 0xF0#8] ++
    [0xF0#8, 0x90#8, 0xF0#8, 0x90#8, 0x90#8, 0xE0#8, 0x90#8, 0xE0#8, 0x90#8, 0xE0#8] ++
    [0xF0#8, 0x80#8, 0x80#8, 0x80#8, 0xF0#8, 0xE0#8, 0x90#8, 0x90#8, 0x90#8, 0xE0#8] ++
    [0xF0#8, 0x80#8, 0xF0#8, 0x80#8, 0xF0#8, 0xF0#8, 0x80#8, 0xF0#8, 0x80#8, 0x80#8] ∧
  (∀ a < 4096, (a < Config.fontBase.val ∨ Config.fontBase.val + 80 ≤ a) →
    State.reset.mem.read a = 0#8) ∧
  ∀ s : State, { (s.transact .reset).1 with outcome := .ok, faultLog := [], draws := 0 } =
    { State.reset with outcome := .ok, faultLog := [], draws := 0 }

/-- The machine's invariant holds after reset. -/
def Obligations.ResetMeetsInvariant : Prop := State.reset.Inv

/-- R70, R71: when the two bytes at PC decode to an instruction, a step is that instruction and then the
tick of both timers; where the instruction ends in a fault or a refusal, so does the step. -/
def Obligations.StepRunsDecodedInstruction : Prop :=
  ∀ (s : State) (i : Instr), s.pc.toNat ≤ 4094 →
    decode [s.mem.read s.pc.toNat, s.mem.read (s.pc.toNat + 1)] = .instr i [] →
    step s = match exec i s with
      | .next t => .next { t with
          dt := if t.dt = 0#8 then 0#8 else t.dt - 1#8
          st := if t.st = 0#8 then 0#8 else t.st - 1#8 }
      | .fault f => .fault f
      | .refused r => .refused r

/-- R32, R71: a fetch that would touch an address above 4095 is the AddressFault of PC. -/
def Obligations.FetchOutsideMemoryFaults : Prop :=
  ∀ s : State, 4094 < s.pc.toNat → step s = .fault (.addressFault s.pc.toNat)

/-- R76: an illegal word is reported with its value and PC, PC advances by 2, the timers tick, and
nothing else of the core changes. -/
def Obligations.IllegalWordIsReportedAndPassed : Prop :=
  ∀ s : State, s.pc.toNat ≤ 4094 → decodeWord s.fetchWord = none →
    ∃ t, step s = .next t ∧ t.outcome = .fault (.unknownOpcode s.fetchWord s.pc) ∧
      t.pc = s.pc + 2#16 ∧ t.dt.toNat = s.dt.toNat - 1 ∧ t.st.toNat = s.st.toNat - 1 ∧
      Frame s t [.dt, .st]

/-- 95_test_vectors.md V-ENC: for each of the 16 families (R9: the most significant nibble) a sample word
decodes to the instruction the spec gives for it, and two sample words are illegal. -/
def Obligations.SampleWordsDecode : Prop :=
  decode [0x00#8, 0xE0#8] = .instr .cls [] ∧
  decode [0x00#8, 0xEE#8] = .instr .ret [] ∧
  decode [0x1A#8, 0xBC#8] = .instr (.jp 0xABC#12) [] ∧
  decode [0x23#8, 0x00#8] = .instr (.call 0x300#12) [] ∧
  decode [0x3A#8, 0x42#8] = .instr (.seByte 0xA 0x42#8) [] ∧
  decode [0x4A#8, 0x42#8] = .instr (.sneByte 0xA 0x42#8) [] ∧
  decode [0x51#8, 0x20#8] = .instr (.seReg 1 2) [] ∧
  decode [0x60#8, 0x05#8] = .instr (.ldByte 0 0x05#8) [] ∧
  decode [0x70#8, 0x03#8] = .instr (.addByte 0 0x03#8) [] ∧
  decode [0x81#8, 0x26#8] = .instr (.shr 1 2) [] ∧
  decode [0x91#8, 0x20#8] = .instr (.sneReg 1 2) [] ∧
  decode [0xA1#8, 0x23#8] = .instr (.ldI 0x123#12) [] ∧
  decode [0xB1#8, 0x05#8] = .instr (.jpV0 0x105#12) [] ∧
  decode [0xC3#8, 0x0F#8] = .instr (.rnd 3 0x0F#8) [] ∧
  decode [0xD1#8, 0x23#8] = .instr (.drw 1 2 3#4) [] ∧
  decode [0xE2#8, 0xA1#8] = .instr (.sknp 2) [] ∧
  decode [0xF2#8, 0x55#8] = .instr (.ldMemVx 2) [] ∧
  decode [0x51#8, 0x21#8] = .unknownOpcode 0x5121#16 ∧
  decode [0x00#8, 0x00#8] = .unknownOpcode 0x0000#16

/-! ### Control flow -/

/-- R91: `RET` pops the newest return address into PC; on an empty stack it reports StackUnderflow and
advances by 2, and nothing else changes. -/
def Obligations.RetPopsOrUnderflows : Prop :=
  ∀ s : State, decodeWord 0x00EE#16 = some .ret ∧
    (0 < s.sp.val → ∃ t, exec .ret s = .next t ∧
      t.pc = s.stack.get (Fin.ofNat 16 (s.sp.val - 1)) ∧ t.sp.val = s.sp.val - 1 ∧
      t.outcome = .ok ∧ Frame s t [.sp]) ∧
    (s.sp.val = 0 → ∃ t, exec .ret s = .next t ∧ t.pc = s.pc + 2#16 ∧
      t.outcome = .fault (.stackUnderflow s.pc) ∧ Frame s t [])

/-- R92: `JP addr` puts NNN into PC, and nothing else changes. -/
def Obligations.JumpSetsPc : Prop :=
  ∀ (nnn : Addr12) (s : State), decodeWord (wordNNN 0x1000#16 nnn) = some (.jp nnn) ∧
    ∃ t, exec (.jp nnn) s = .next t ∧ t.pc.toNat = nnn.toNat ∧ t.outcome = .ok ∧ Frame s t []

/-- R93: `CALL addr` pushes the address of the next instruction and jumps; on a full stack it reports
StackOverflow and advances by 2, and nothing else changes. -/
def Obligations.CallPushesOrOverflows : Prop :=
  ∀ (nnn : Addr12) (s : State), decodeWord (wordNNN 0x2000#16 nnn) = some (.call nnn) ∧
    (s.sp.val < 16 → ∃ t, exec (.call nnn) s = .next t ∧
      t.stack.get (Fin.ofNat 16 s.sp.val) = s.pc + 2#16 ∧ t.sp.val = s.sp.val + 1 ∧
      t.pc.toNat = nnn.toNat ∧ t.outcome = .ok ∧
      Frame s t [.stackSlot (Fin.ofNat 16 s.sp.val), .sp]) ∧
    (s.sp.val = 16 → ∃ t, exec (.call nnn) s = .next t ∧ t.pc = s.pc + 2#16 ∧
      t.outcome = .fault (.stackOverflow s.pc) ∧ Frame s t [])

/-- R94, R95: `SE Vx, byte` skips when the register equals the byte, `SNE Vx, byte` when it differs;
nothing but PC changes. -/
def Obligations.SkipsOnByteCompare : Prop :=
  ∀ (x : Reg) (nn : Byte) (s : State),
    decodeWord (wordXNN 0x3000#16 x nn) = some (.seByte x nn) ∧
    decodeWord (wordXNN 0x4000#16 x nn) = some (.sneByte x nn) ∧
    (∃ t, exec (.seByte x nn) s = .next t ∧
      t.pc = (if s.getV x = nn then s.pc + 4#16 else s.pc + 2#16) ∧
      t.outcome = .ok ∧ Frame s t []) ∧
    (∃ t, exec (.sneByte x nn) s = .next t ∧
      t.pc = (if s.getV x ≠ nn then s.pc + 4#16 else s.pc + 2#16) ∧
      t.outcome = .ok ∧ Frame s t [])

/-- R96, R98: `SE Vx, Vy` skips when the registers are equal, `SNE Vx, Vy` when they differ; nothing but
PC changes, and the words with a low nibble other than 0 are illegal. -/
def Obligations.SkipsOnRegisterCompare : Prop :=
  ∀ (x y : Reg) (s : State),
    decodeWord (wordXY 0x5000#16 x y) = some (.seReg x y) ∧
    decodeWord (wordXY 0x9000#16 x y) = some (.sneReg x y) ∧
    (∀ n : Nibble, n ≠ 0#4 → decodeWord (wordXYN 0x5000#16 x y n) = none ∧
      decodeWord (wordXYN 0x9000#16 x y n) = none) ∧
    (∃ t, exec (.seReg x y) s = .next t ∧
      t.pc = (if s.getV x = s.getV y then s.pc + 4#16 else s.pc + 2#16) ∧
      t.outcome = .ok ∧ Frame s t []) ∧
    (∃ t, exec (.sneReg x y) s = .next t ∧
      t.pc = (if s.getV x ≠ s.getV y then s.pc + 4#16 else s.pc + 2#16) ∧
      t.outcome = .ok ∧ Frame s t [])

/-- R97: `JP V0, addr` puts the untruncated sum of NNN and V0 into PC, and nothing else changes. -/
def Obligations.JumpWithOffsetAddsV0 : Prop :=
  ∀ (nnn : Addr12) (s : State), decodeWord (wordNNN 0xB000#16 nnn) = some (.jpV0 nnn) ∧
    ∃ t, exec (.jpV0 nnn) s = .next t ∧ t.pc.toNat = nnn.toNat + (s.getV 0).toNat ∧
      t.outcome = .ok ∧ Frame s t []

/-! ### Register load and arithmetic -/

/-- R111: `LD Vx, byte`. -/
def Obligations.LoadByteSetsRegister : Prop :=
  ∀ (x : Reg) (nn : Byte) (s : State), decodeWord (wordXNN 0x6000#16 x nn) = some (.ldByte x nn) ∧
    ∃ t, exec (.ldByte x nn) s = .next t ∧ t.getV x = nn ∧
      t.pc = s.pc + 2#16 ∧ t.outcome = .ok ∧ Frame s t [.v x]

/-- R112: `ADD Vx, byte` wraps at 8 bits and has no flag effect. -/
def Obligations.AddByteWrapsWithoutFlag : Prop :=
  ∀ (x : Reg) (nn : Byte) (s : State), decodeWord (wordXNN 0x7000#16 x nn) = some (.addByte x nn) ∧
    ∃ t, exec (.addByte x nn) s = .next t ∧
      (t.getV x).toNat = ((s.getV x).toNat + nn.toNat) % 256 ∧
      t.pc = s.pc + 2#16 ∧ t.outcome = .ok ∧ Frame s t [.v x]

/-- R113: `LD Vx, Vy` copies a register. -/
def Obligations.LoadRegisterCopies : Prop :=
  ∀ (x y : Reg) (s : State), decodeWord (wordXY 0x8000#16 x y) = some (.ldReg x y) ∧
    ∃ t, exec (.ldReg x y) s = .next t ∧ t.getV x = s.getV y ∧
      t.pc = s.pc + 2#16 ∧ t.outcome = .ok ∧ Frame s t [.v x]

/-- R114, R115, R116: `OR`, `AND` and `XOR` act bit by bit and have no flag effect. -/
def Obligations.LogicActsBitwiseWithoutFlag : Prop :=
  ∀ (x y : Reg) (s : State),
    decodeWord (wordXY 0x8001#16 x y) = some (.orReg x y) ∧
    decodeWord (wordXY 0x8002#16 x y) = some (.andReg x y) ∧
    decodeWord (wordXY 0x8003#16 x y) = some (.xorReg x y) ∧
    (∃ t, exec (.orReg x y) s = .next t ∧
      (∀ b, (t.getV x).getLsbD b = ((s.getV x).getLsbD b || (s.getV y).getLsbD b)) ∧
      t.pc = s.pc + 2#16 ∧ t.outcome = .ok ∧ Frame s t [.v x]) ∧
    (∃ t, exec (.andReg x y) s = .next t ∧
      (∀ b, (t.getV x).getLsbD b = ((s.getV x).getLsbD b && (s.getV y).getLsbD b)) ∧
      t.pc = s.pc + 2#16 ∧ t.outcome = .ok ∧ Frame s t [.v x]) ∧
    (∃ t, exec (.xorReg x y) s = .next t ∧
      (∀ b, (t.getV x).getLsbD b = ((s.getV x).getLsbD b ^^ (s.getV y).getLsbD b)) ∧
      t.pc = s.pc + 2#16 ∧ t.outcome = .ok ∧ Frame s t [.v x])

/-- R117: `ADD Vx, Vy`: the sum modulo 256, and VF is 1 iff the sum exceeds 255; with x = 15 VF is the
flag. -/
def Obligations.AddRegistersSetsCarry : Prop :=
  ∀ (x y : Reg) (s : State), decodeWord (wordXY 0x8004#16 x y) = some (.addReg x y) ∧
    ∃ t, exec (.addReg x y) s = .next t ∧
      (x ≠ 15 → (t.getV x).toNat = ((s.getV x).toNat + (s.getV y).toNat) % 256) ∧
      t.getV 15 = (if 255 < (s.getV x).toNat + (s.getV y).toNat then 1#8 else 0#8) ∧
      t.pc = s.pc + 2#16 ∧ t.outcome = .ok ∧ Frame s t [.v x, .v 15]

/-- R118: `SUB Vx, Vy`: the difference modulo 256, and VF is 1 iff `Vx ≥ Vy`; with x = 15 VF is the
flag. -/
def Obligations.SubtractSetsNotBorrow : Prop :=
  ∀ (x y : Reg) (s : State), decodeWord (wordXY 0x8005#16 x y) = some (.sub x y) ∧
    ∃ t, exec (.sub x y) s = .next t ∧
      (x ≠ 15 → ((t.getV x).toNat : Int) = ((s.getV x).toNat - (s.getV y).toNat : Int) % 256) ∧
      t.getV 15 = (if (s.getV y).toNat ≤ (s.getV x).toNat then 1#8 else 0#8) ∧
      t.pc = s.pc + 2#16 ∧ t.outcome = .ok ∧ Frame s t [.v x, .v 15]

/-- R119: `SHR Vx`, in place whatever Y: half the value, and VF is the old bit 0; with x = 15 VF is the
flag. -/
def Obligations.ShiftRightPutsBitInFlag : Prop :=
  ∀ (x y : Reg) (s : State), decodeWord (wordXY 0x8006#16 x y) = some (.shr x y) ∧
    ∃ t, exec (.shr x y) s = .next t ∧
      (x ≠ 15 → (t.getV x).toNat = (s.getV x).toNat / 2) ∧
      (t.getV 15).toNat = (s.getV x).toNat % 2 ∧
      t.pc = s.pc + 2#16 ∧ t.outcome = .ok ∧ Frame s t [.v x, .v 15]

/-- R120: `SUBN Vx, Vy`: `Vy - Vx` modulo 256, and VF is 1 iff `Vy ≥ Vx`; with x = 15 VF is the flag. -/
def Obligations.ReverseSubtractSetsNotBorrow : Prop :=
  ∀ (x y : Reg) (s : State), decodeWord (wordXY 0x8007#16 x y) = some (.subn x y) ∧
    ∃ t, exec (.subn x y) s = .next t ∧
      (x ≠ 15 → ((t.getV x).toNat : Int) = ((s.getV y).toNat - (s.getV x).toNat : Int) % 256) ∧
      t.getV 15 = (if (s.getV x).toNat ≤ (s.getV y).toNat then 1#8 else 0#8) ∧
      t.pc = s.pc + 2#16 ∧ t.outcome = .ok ∧ Frame s t [.v x, .v 15]

/-- R121: `SHL Vx`, in place whatever Y: twice the value modulo 256, and VF is the old bit 7; with
x = 15 VF is the flag. -/
def Obligations.ShiftLeftPutsBitInFlag : Prop :=
  ∀ (x y : Reg) (s : State), decodeWord (wordXY 0x800E#16 x y) = some (.shl x y) ∧
    ∃ t, exec (.shl x y) s = .next t ∧
      (x ≠ 15 → (t.getV x).toNat = 2 * (s.getV x).toNat % 256) ∧
      (t.getV 15).toNat = (s.getV x).toNat / 128 ∧
      t.pc = s.pc + 2#16 ∧ t.outcome = .ok ∧ Frame s t [.v x, .v 15]

/-! ### Index register, random number -/

/-- R130: `LD I, addr`. -/
def Obligations.LoadIndexSetsAddress : Prop :=
  ∀ (nnn : Addr12) (s : State), decodeWord (wordNNN 0xA000#16 nnn) = some (.ldI nnn) ∧
    ∃ t, exec (.ldI nnn) s = .next t ∧ t.i.toNat = nnn.toNat ∧
      t.pc = s.pc + 2#16 ∧ t.outcome = .ok ∧ Frame s t [.i]

/-- R131: `ADD I, Vx` wraps at 16 bits and touches no flag. -/
def Obligations.AddIndexWrapsAtSixteenBits : Prop :=
  ∀ (x : Reg) (s : State), decodeWord (wordX 0xF01E#16 x) = some (.addIVx x) ∧
    ∃ t, exec (.addIVx x) s = .next t ∧
      t.i.toNat = (s.i.toNat + (s.getV x).toNat) % 65536 ∧
      t.pc = s.pc + 2#16 ∧ t.outcome = .ok ∧ Frame s t [.i]

/-- R132: `LD F, Vx` gives the address of the glyph that the low nibble names, for every admissible
`FONT_BASE`. -/
def Obligations.LoadGlyphAddressUsesLowNibble : Prop :=
  ∀ (x : Reg) (s : State), decodeWord (wordX 0xF029#16 x) = some (.ldFVx x) ∧
    ∃ t, exec (.ldFVx x) s = .next t ∧
      t.i.toNat = Config.fontBase.val + 5 * ((s.getV x).toNat % 16) ∧
      t.pc = s.pc + 2#16 ∧ t.outcome = .ok ∧ Frame s t [.i]

/-- R140, R141: `RND Vx, byte` writes the masked random byte of this draw and consumes the draw. The byte
is the free value `Config.rnd` and the count of draws is the model's own (notes/assumptions/2.md). -/
def Obligations.RandomByteIsMasked : Prop :=
  ∀ (x : Reg) (nn : Byte) (s : State), decodeWord (wordXNN 0xC000#16 x nn) = some (.rnd x nn) ∧
    ∃ t, exec (.rnd x nn) s = .next t ∧ t.getV x = Config.rnd s.draws &&& nn ∧
      t.draws = s.draws + 1 ∧ t.pc = s.pc + 2#16 ∧ t.outcome = .ok ∧ Frame s t [.v x]

/-! ### Display and keys -/

/-- R145: `CLS` clears every cell and changes nothing else, VF included. -/
def Obligations.ClearZeroesEveryCell : Prop :=
  ∀ s : State, decodeWord 0x00E0#16 = some .cls ∧
    ∃ t, exec .cls s = .next t ∧ (∀ y x, t.fb.cell y x = false) ∧
      t.pc = s.pc + 2#16 ∧ t.outcome = .ok ∧ Frame s t allCells

/-- R146, R147(c): `DRW Vx, Vy, nibble` inverts exactly the cells under the sprite's 1 bits, wrapped at the
edges, and VF is 1 iff one of them was 1; a sprite with a row outside memory aborts with AddressFault. -/
def Obligations.DrawInvertsCoveredCells : Prop :=
  ∀ (x y : Reg) (n : Nibble) (s : State),
    decodeWord (wordXYN 0xD000#16 x y n) = some (.drw x y n) ∧
    (1 ≤ n.toNat → 4096 < s.i.toNat + n.toNat →
      exec (.drw x y n) s = .fault (.addressFault (max s.i.toNat 4096))) ∧
    (n.toNat = 0 ∨ s.i.toNat + n.toNat ≤ 4096 →
      ∃ t, exec (.drw x y n) s = .next t ∧
        (∀ r c, Covers s.mem s.i.toNat n.toNat (s.getV x).toNat (s.getV y).toNat r c →
          t.fb.cell r c = !s.fb.cell r c) ∧
        (∀ r c, ¬ Covers s.mem s.i.toNat n.toNat (s.getV x).toNat (s.getV y).toNat r c →
          t.fb.cell r c = s.fb.cell r c) ∧
        ((∃ r c, Covers s.mem s.i.toNat n.toNat (s.getV x).toNat (s.getV y).toNat r c ∧
          s.fb.cell r c = true) → t.getV 15 = 1#8) ∧
        ((¬ ∃ r c, Covers s.mem s.i.toNat n.toNat (s.getV x).toNat (s.getV y).toNat r c ∧
          s.fb.cell r c = true) → t.getV 15 = 0#8) ∧
        t.pc = s.pc + 2#16 ∧ t.outcome = .ok ∧ Frame s t (.v 15 :: allCells))

/-- R147(b): the same sprite drawn twice at the same place restores every cell, and the second draw
reports a collision when the sprite has a 1 bit. -/
def Obligations.DrawTwiceRestores : Prop :=
  ∀ (x y : Reg) (n : Nibble) (s t : State), x ≠ 15 → y ≠ 15 → exec (.drw x y n) s = .next t →
    ∃ u, exec (.drw x y n) t = .next u ∧ (∀ r c, u.fb.cell r c = s.fb.cell r c) ∧
      (t.getV 15 = 0#8 →
        (∃ r c, Covers s.mem s.i.toNat n.toNat (s.getV x).toNat (s.getV y).toNat r c) →
        u.getV 15 = 1#8)

/-- R160, R161, R162: `SKP Vx` skips when the key that the low nibble of Vx names is pressed, `SKNP Vx` when
it is not; nothing but PC changes. -/
def Obligations.KeySkipsTestSelectedKey : Prop :=
  ∀ (x : Reg) (s : State),
    decodeWord (wordX 0xE09E#16 x) = some (.skp x) ∧
    decodeWord (wordX 0xE0A1#16 x) = some (.sknp x) ∧
    (∃ t, exec (.skp x) s = .next t ∧
      t.pc = (if s.keys.get (Fin.ofNat 16 ((s.getV x).toNat % 16)) = true then s.pc + 4#16
        else s.pc + 2#16) ∧ t.outcome = .ok ∧ Frame s t []) ∧
    (∃ t, exec (.sknp x) s = .next t ∧
      t.pc = (if s.keys.get (Fin.ofNat 16 ((s.getV x).toNat % 16)) = false then s.pc + 4#16
        else s.pc + 2#16) ∧ t.outcome = .ok ∧ Frame s t [])

/-! ### Timers, key wait, memory transfers -/

/-- R170: `LD Vx, DT` reads the delay timer. -/
def Obligations.LoadDelayTimerReads : Prop :=
  ∀ (x : Reg) (s : State), decodeWord (wordX 0xF007#16 x) = some (.ldVxDt x) ∧
    ∃ t, exec (.ldVxDt x) s = .next t ∧ t.getV x = s.dt ∧
      t.pc = s.pc + 2#16 ∧ t.outcome = .ok ∧ Frame s t [.v x]

/-- R171: `LD Vx, K` is blocked, with nothing written, while no key is pressed, and otherwise captures the
least index pressed. -/
def Obligations.KeyWaitBlocksOrCaptures : Prop :=
  ∀ (x : Reg) (s : State), decodeWord (wordX 0xF00A#16 x) = some (.ldVxK x) ∧
    ((∀ k, s.keys.get k = false) → ∃ t, exec (.ldVxK x) s = .next t ∧ t.pc = s.pc ∧
      t.outcome = .blocked ∧ Frame s t []) ∧
    (∀ k : Fin 16, s.keys.get k = true → (∀ j < k, s.keys.get j = false) →
      ∃ t, exec (.ldVxK x) s = .next t ∧ (t.getV x).toNat = k.val ∧ t.pc = s.pc + 2#16 ∧
        t.outcome = .ok ∧ Frame s t [.v x])

/-- R172, R173: `LD DT, Vx` and `LD ST, Vx` write the timer, before the tick. -/
def Obligations.TimerWritesStoreRegister : Prop :=
  ∀ (x : Reg) (s : State),
    decodeWord (wordX 0xF015#16 x) = some (.ldDtVx x) ∧
    decodeWord (wordX 0xF018#16 x) = some (.ldStVx x) ∧
    (∃ t, exec (.ldDtVx x) s = .next t ∧ t.dt = s.getV x ∧
      t.pc = s.pc + 2#16 ∧ t.outcome = .ok ∧ Frame s t [.dt]) ∧
    (∃ t, exec (.ldStVx x) s = .next t ∧ t.st = s.getV x ∧
      t.pc = s.pc + 2#16 ∧ t.outcome = .ok ∧ Frame s t [.st])

/-- R174: `LD B, Vx` stores hundreds, tens and ones at I, I + 1 and I + 2 and nothing else; if one of the
three is outside memory it aborts with AddressFault. -/
def Obligations.BcdStoresThreeDigits : Prop :=
  ∀ (x : Reg) (s : State), s.mem.wf = true → decodeWord (wordX 0xF033#16 x) = some (.ldBVx x) ∧
    (4096 ≤ s.i.toNat + 2 →
      exec (.ldBVx x) s = .fault (.addressFault (max s.i.toNat 4096))) ∧
    (s.i.toNat + 2 < 4096 →
      ∃ t, exec (.ldBVx x) s = .next t ∧
        (t.mem.read s.i.toNat).toNat = (s.getV x).toNat / 100 ∧
        (t.mem.read (s.i.toNat + 1)).toNat = (s.getV x).toNat / 10 % 10 ∧
        (t.mem.read (s.i.toNat + 2)).toNat = (s.getV x).toNat % 10 ∧
        t.pc = s.pc + 2#16 ∧ t.outcome = .ok ∧ Frame s t (bytesFrom s.i.toNat 3))

/-- R175: `LD [I], Vx` stores V0 to Vx at I upward and nothing else; if one address is outside memory it
aborts with AddressFault. -/
def Obligations.BlockStoreWritesRegisters : Prop :=
  ∀ (x : Reg) (s : State), s.mem.wf = true → decodeWord (wordX 0xF055#16 x) = some (.ldMemVx x) ∧
    (4096 ≤ s.i.toNat + x.val →
      exec (.ldMemVx x) s = .fault (.addressFault (max s.i.toNat 4096))) ∧
    (s.i.toNat + x.val < 4096 →
      ∃ t, exec (.ldMemVx x) s = .next t ∧
        (∀ j ≤ x, t.mem.read (s.i.toNat + j.val) = s.getV j) ∧
        t.pc = s.pc + 2#16 ∧ t.outcome = .ok ∧ Frame s t (bytesFrom s.i.toNat (x.val + 1)))

/-- R176: `LD Vx, [I]` loads V0 to Vx from I upward and changes nothing else; if one address is outside
memory it aborts with AddressFault. -/
def Obligations.BlockLoadReadsRegisters : Prop :=
  ∀ (x : Reg) (s : State), decodeWord (wordX 0xF065#16 x) = some (.ldVxMem x) ∧
    (4096 ≤ s.i.toNat + x.val →
      exec (.ldVxMem x) s = .fault (.addressFault (max s.i.toNat 4096))) ∧
    (s.i.toNat + x.val < 4096 →
      ∃ t, exec (.ldVxMem x) s = .next t ∧
        (∀ j ≤ x, t.getV j = s.mem.read (s.i.toNat + j.val)) ∧
        t.pc = s.pc + 2#16 ∧ t.outcome = .ok ∧ Frame s t (regsTo x))

/-! ### Encoding, over all words and all instructions -/

/-- Every instruction decodes from its own two bytes, whatever follows. -/
def Obligations.DecodeOfEncode : Prop :=
  ∀ (i : Instr) (rest : List Byte), decode (encodeBytes i ++ rest) = .instr i rest

/-- Every word that is an instruction is that instruction's encoding: decoding drops no bit. -/
def Obligations.EncodeOfDecode : Prop :=
  ∀ (w : Word) (i : Instr), decodeWord w = some i → encode i = w

/-- R54, R57: the illegal words, family by family, are exactly those that decode to nothing, and they
are the ones the legality check of fields refuses. -/
def Obligations.IllegalWordsAreExactly : Prop :=
  ∀ w : Word,
    (decodeWord w = none ↔
      (w.toNat / 4096 = 0 ∧ w.toNat % 4096 ∉ [0x0E0, 0x0EE]) ∨
      (w.toNat / 4096 = 5 ∧ w.toNat % 16 ≠ 0) ∨
      (w.toNat / 4096 = 8 ∧ w.toNat % 16 ∈ [8, 9, 0xA, 0xB, 0xC, 0xD, 0xF]) ∨
      (w.toNat / 4096 = 9 ∧ w.toNat % 16 ≠ 0) ∨
      (w.toNat / 4096 = 0xE ∧ w.toNat % 256 ∉ [0x9E, 0xA1]) ∨
      (w.toNat / 4096 = 0xF ∧
        w.toNat % 256 ∉ [0x07, 0x0A, 0x15, 0x18, 0x1E, 0x29, 0x33, 0x55, 0x65])) ∧
    (decodeWord w = none ↔ (Fields.ofWord w).legal = false)

/-- R56: a word is the instruction of a row of Table 30-3 iff `w & mask = match`. -/
def Obligations.TableRowsDecideDecoding : Prop :=
  ∀ (w : Word) (i : Instr),
    (opcodeRow i).admits w = true ↔ ∃ j, decodeWord w = some j ∧ opcodeRow j = opcodeRow i

/-! ### The machine as a whole -/

/-- R14, R91: every step keeps memory canonical, PC at most 0x10FE, and the return addresses on the stack
in 2 to 4096. -/
def Obligations.StepKeepsInvariant : Prop :=
  ∀ s t : State, s.Inv → step s = .next t → t.Inv

/-- The invariant is kept by every host transaction, a step, a load and a reset among them. -/
def Obligations.TransactionsKeepInvariant : Prop :=
  ∀ (s : State) (ts : List Transaction), s.Inv → (s.session ts).Inv

/-- R36, R198: an instruction aborts exactly when its data accesses reach 4096, with the lowest address
outside memory; otherwise it has a next state. No instruction raises anything else, and none is
refused. -/
def Obligations.AbortsExactlyOutsideMemory : Prop :=
  ∀ (i : Instr) (s : State),
    (1 ≤ accessBytes i → 4096 < s.i.toNat + accessBytes i →
      exec i s = .fault (.addressFault (max s.i.toNat 4096))) ∧
    (accessBytes i = 0 ∨ s.i.toNat + accessBytes i ≤ 4096 → ∃ t, exec i s = .next t)

/-- R25 (Table 10-2): an instruction changes nothing but PC and the state the table lists for it. -/
def Obligations.InstructionsWriteOnlyTheirState : Prop :=
  ∀ (i : Instr) (s t : State), s.mem.wf = true → exec i s = .next t → Frame s t (writeSet s i)

/-- R16, R17, R72: in every step that has a next state both timers count down by one and stop at 0, from the
value the instruction left. -/
def Obligations.TimersTickOncePerStep : Prop :=
  ∀ s t : State, step s = .next t →
    ((∀ x, decodeWord s.fetchWord ≠ some (.ldDtVx x)) → t.dt.toNat = s.dt.toNat - 1) ∧
    (∀ x, decodeWord s.fetchWord = some (.ldDtVx x) → t.dt.toNat = (s.getV x).toNat - 1) ∧
    ((∀ x, decodeWord s.fetchWord ≠ some (.ldStVx x)) → t.st.toNat = s.st.toNat - 1) ∧
    (∀ x, decodeWord s.fetchWord = some (.ldStVx x) → t.st.toNat = (s.getV x).toNat - 1)

/-- R19, R141: no step changes the key state, and a draw is consumed exactly by a step that runs `RND`.
The count of draws is the model's own (notes/assumptions/2.md). -/
def Obligations.StepsKeepKeysAndDrawOnlyForRnd : Prop :=
  ∀ s t : State, step s = .next t →
    t.keys = s.keys ∧
    ((∃ x nn, decodeWord s.fetchWord = some (.rnd x nn)) → t.draws = s.draws + 1) ∧
    ((∀ x nn, decodeWord s.fetchWord ≠ some (.rnd x nn)) → t.draws = s.draws)

/-- R73: an instruction that does not abort completes, or is the blocked key wait, which changes nothing,
or is one of the two continuing stack faults, which change only PC. -/
def Obligations.OutcomesOfInstructions : Prop :=
  ∀ (i : Instr) (s t : State), exec i s = .next t →
    t.outcome = .ok ∨
    (t.outcome = .blocked ∧ (∃ x, i = .ldVxK x) ∧ (∀ k, s.keys.get k = false) ∧ t.pc = s.pc ∧
      Frame s t []) ∨
    (t.outcome = .fault (.stackUnderflow s.pc) ∧ i = .ret ∧ s.sp.val = 0 ∧ t.pc = s.pc + 2#16 ∧
      Frame s t []) ∨
    (t.outcome = .fault (.stackOverflow s.pc) ∧ (∃ nnn, i = .call nnn) ∧ s.sp.val = 16 ∧
      t.pc = s.pc + 2#16 ∧ Frame s t [])

/-- The model's fault log (R197; the model's own, notes/assumptions/3.md): a step that has a next state
appends the fault it reports, if any, and nothing else. -/
def Obligations.StepAppendsReportedFault : Prop :=
  ∀ s t : State, step s = .next t →
    (∀ f, t.outcome = .fault f → t.faultLog = s.faultLog ++ [f]) ∧
    ((∀ f, t.outcome ≠ .fault f) → t.faultLog = s.faultLog)

/-- R192: after an AddressFault the core is as before the cycle, so the next cycle raises the same fault. -/
def Obligations.AddressFaultRepeats : Prop :=
  ∀ (s : State) (f : Fault), step s = .fault f →
    s.SameCore (s.transact .step).1 ∧ (s.transact .step).2 = .outcome (.fault f) ∧
      step (s.transact .step).1 = .fault f

/-- R246: a finished program is a fixed point: every further cycle is `Ok` and changes nothing. -/
def Obligations.FinishedIsFixedPoint : Prop :=
  ∀ (s : State) (h : Addr12), s.FinishedAt h →
    ∃ t, step s = .next t ∧ t.outcome = .ok ∧ s.SameCore t ∧ t.faultLog = s.faultLog ∧
      t.FinishedAt h

/-- R91, R93: a call followed at once by a return comes back to the instruction after the call, with the
stack as deep as before. -/
def Obligations.CallThenReturnComesBack : Prop :=
  ∀ (nnn : Addr12) (s t : State), s.sp.val < 16 → exec (.call nnn) s = .next t →
    ∃ u, exec .ret t = .next u ∧ u.pc = s.pc + 2#16 ∧ u.sp = s.sp ∧ u.outcome = .ok

/-- R175, R176: registers stored and loaded again from the same I have their old values, whatever was in
the registers in between. -/
def Obligations.BlockStoreThenLoadRestores : Prop :=
  ∀ (x : Reg) (s t u : State), s.mem.wf = true → exec (.ldMemVx x) s = .next t →
    u.mem = t.mem → u.i = t.i →
    ∃ w, exec (.ldVxMem x) u = .next w ∧ ∀ j ≤ x, w.getV j = s.getV j

/-- R43: two registers stored over the next instruction are the word that the next cycle fetches. -/
def Obligations.StoredWordIsFetchedNext : Prop :=
  ∀ (x : Reg) (s t : State), s.mem.wf = true → 1 ≤ x.val → s.i = s.pc + 2#16 →
    exec (.ldMemVx x) s = .next t → t.fetchWord = wordOfBytes (s.getV 0) (s.getV 1)

/-- R21, R132: after reset the five bytes at the address that `LD F, Vx` gives are the glyph of the
register's low nibble. -/
def Obligations.GlyphAddressHoldsGlyph : Prop :=
  ∀ (b : Byte) (k : Nat), k < 5 →
    State.reset.mem.read ((glyphAddr b).toNat + k) =
      fontBytes.getD (5 * (b.toNat % 16) + k) 0#8

/-! ### The host's transactions -/

/-- R234, R191: an image that does not fit is LoadFault and leaves the core as it was; one that fits is
copied to 0x200 upward, and nothing else changes. -/
def Obligations.LoadCopiesImageOrFaults : Prop :=
  ∀ (s : State) (image : List Byte), s.mem.wf = true →
    (4096 < 0x200 + image.length →
      s.load image = .fault (.loadFault image.length) ∧
        (s.transact (.load image)).2 = .outcome (.fault (.loadFault image.length)) ∧
        s.SameCore (s.transact (.load image)).1) ∧
    (0x200 + image.length ≤ 4096 →
      ∃ t, s.load image = .next t ∧ s.transact (.load image) = (t, .outcome .ok) ∧
        (∀ k < image.length, t.mem.read (0x200 + k) = image.getD k 0#8) ∧
        t.pc = s.pc ∧ t.outcome = .ok ∧ Frame s t (bytesFrom 0x200 image.length))

/-- R214 (Table 60-2), R209, R211, R212: what the host gets from each transaction. A step or a load that is
accepted leaves the state it leads to and answers that state's outcome; the two reads change nothing and
give the cells and `ST != 0`; a key write answers nothing, replaces the 16 flags and changes nothing else
of the core; a reset answers nothing. The outcome that a state keeps is the model's own field
(notes/assumptions/3.md). -/
def Obligations.HostReadsAndKeyWrites : Prop :=
  ∀ (s : State) (ks : Keys),
    (∀ t, step s = .next t → s.transact .step = (t, .outcome t.outcome)) ∧
    (∀ image t, s.load image = .next t → s.transact (.load image) = (t, .outcome t.outcome)) ∧
    s.transact .readFramebuffer = (s, .framebuffer s.fb) ∧
    (∃ on, s.transact .readSound = (s, .sound on) ∧ (on = true ↔ s.st.toNat ≠ 0)) ∧
    (s.transact (.setKeys ks)).2 = .nothing ∧
    (∀ k, (s.transact (.setKeys ks)).1.keys.get k = ks.get k) ∧
    (s.transact (.setKeys ks)).1.pc = s.pc ∧
    Frame s (s.transact (.setKeys ks)).1 ((List.finRange 16).map .key) ∧
    (s.transact .reset).2 = .nothing
end

