-- ==== Sys2Proof/Laws/Decode.lean ====
section
/-! SUPPORT. The bits of words: what the field extractor reads from a packed word, what packing the
extracted fields gives back, and the byte order of a word. -/

namespace Sys2Proof

@[simp] theorem Reg.ofNibble_toNibble (r : Reg) : Reg.ofNibble r.toNibble = r := rfl

@[simp] theorem Reg.toNibble_ofNibble (n : Nibble) : (Reg.ofNibble n).toNibble = n := rfl

/-- A word is its two bytes, high byte first (R31). -/
@[simp] theorem wordOfBytes_highByte_lowByte (w : Word) :
    wordOfBytes (highByte w) (lowByte w) = w := by
  simp only [wordOfBytes, highByte, lowByte]
  ext i hi; interval_cases i <;> simp

theorem Fields.ofWord_packNNN (f : Nibble) (nnn : Addr12) :
    (Fields.ofWord (packNNN f nnn)).f = f ∧ (Fields.ofWord (packNNN f nnn)).nnn = nnn := by
  simp only [Fields.ofWord, packNNN]
  refine ⟨?_, ?_⟩ <;> ext i hi <;> interval_cases i <;> simp

theorem Fields.ofWord_packXNN (f : Nibble) (x : Reg) (nn : Byte) :
    (Fields.ofWord (packXNN f x nn)).f = f ∧ (Fields.ofWord (packXNN f x nn)).x = x.toNibble ∧
      (Fields.ofWord (packXNN f x nn)).nn = nn := by
  simp only [Fields.ofWord, packXNN]
  refine ⟨?_, ?_, ?_⟩ <;> ext i hi <;> interval_cases i <;> simp

theorem Fields.ofWord_packXYN (f : Nibble) (x y : Reg) (n : Nibble) :
    (Fields.ofWord (packXYN f x y n)).f = f ∧ (Fields.ofWord (packXYN f x y n)).x = x.toNibble ∧
      (Fields.ofWord (packXYN f x y n)).y = y.toNibble ∧
      (Fields.ofWord (packXYN f x y n)).n = n := by
  simp only [Fields.ofWord, packXYN]
  refine ⟨?_, ?_, ?_, ?_⟩ <;> ext i hi <;> interval_cases i <;> simp

theorem packNNN_ofWord (w : Word) : packNNN (Fields.ofWord w).f (Fields.ofWord w).nnn = w := by
  simp only [Fields.ofWord, packNNN]
  ext i hi; interval_cases i <;> simp

theorem packXNN_ofWord (w : Word) :
    packXNN (Fields.ofWord w).f (Reg.ofNibble (Fields.ofWord w).x) (Fields.ofWord w).nn = w := by
  simp only [Fields.ofWord, packXNN, Reg.toNibble_ofNibble]
  ext i hi; interval_cases i <;> simp

theorem packXYN_ofWord (w : Word) :
    packXYN (Fields.ofWord w).f (Reg.ofNibble (Fields.ofWord w).x) (Reg.ofNibble (Fields.ofWord w).y)
      (Fields.ofWord w).n = w := by
  simp only [Fields.ofWord, packXYN, Reg.toNibble_ofNibble]
  ext i hi; interval_cases i <;> simp

/-- A register number in a word, as a number and as a nibble. -/
theorem Reg.setWidth_toNibble (x : Reg) : x.toNibble.setWidth 16 = BitVec.ofNat 16 x.val := by
  apply BitVec.eq_of_toNat_eq
  simp only [Reg.toNibble, BitVec.toNat_setWidth, BitVec.toNat_ofFin, BitVec.toNat_ofNat]

namespace Machine

theorem packNNN_eq_wordNNN (f : Nibble) (nnn : Addr12) :
    packNNN f nnn = wordNNN (f.setWidth 16 <<< 12) nnn := rfl

theorem packXNN_eq_wordXNN (f : Nibble) (x : Reg) (nn : Byte) :
    packXNN f x nn = wordXNN (f.setWidth 16 <<< 12) x nn := by
  simp only [packXNN, wordXNN, Reg.setWidth_toNibble]

theorem packXNN_eq_wordX (f : Nibble) (x : Reg) (nn : Byte) :
    packXNN f x nn = wordX (f.setWidth 16 <<< 12 ||| nn.setWidth 16) x := by
  simp only [packXNN, wordX, Reg.setWidth_toNibble]
  ac_rfl

theorem packXYN_eq_wordXYN (f : Nibble) (x y : Reg) (n : Nibble) :
    packXYN f x y n = wordXYN (f.setWidth 16 <<< 12) x y n := by
  simp only [packXYN, wordXYN, wordXY, Reg.setWidth_toNibble]

theorem packXYN_eq_wordXY (f : Nibble) (x y : Reg) (n : Nibble) :
    packXYN f x y n = wordXY (f.setWidth 16 <<< 12 ||| n.setWidth 16) x y := by
  simp only [packXYN, wordXY, Reg.setWidth_toNibble]
  ac_rfl

end Machine

end Sys2Proof
end

