-- ==== Sys2Proof/Laws/State.lean ====
section
/-! SUPPORT. Each state update beside each field: one lemma per field per update, true by unfolding,
so that no later proof unfolds a record update. Registers are read with `getV`. -/

namespace Sys2Proof.Machine

variable (s : State)

/-! ### setV -/
@[simp] theorem State.setV_i (r : Reg) (b : Byte) : (s.setV r b).i = s.i := rfl
@[simp] theorem State.setV_pc (r : Reg) (b : Byte) : (s.setV r b).pc = s.pc := rfl
@[simp] theorem State.setV_stack (r : Reg) (b : Byte) : (s.setV r b).stack = s.stack := rfl
@[simp] theorem State.setV_sp (r : Reg) (b : Byte) : (s.setV r b).sp = s.sp := rfl
@[simp] theorem State.setV_dt (r : Reg) (b : Byte) : (s.setV r b).dt = s.dt := rfl
@[simp] theorem State.setV_st (r : Reg) (b : Byte) : (s.setV r b).st = s.st := rfl
@[simp] theorem State.setV_fb (r : Reg) (b : Byte) : (s.setV r b).fb = s.fb := rfl
@[simp] theorem State.setV_keys (r : Reg) (b : Byte) : (s.setV r b).keys = s.keys := rfl
@[simp] theorem State.setV_mem (r : Reg) (b : Byte) : (s.setV r b).mem = s.mem := rfl
@[simp] theorem State.setV_outcome (r : Reg) (b : Byte) : (s.setV r b).outcome = s.outcome := rfl
@[simp] theorem State.setV_faultLog (r : Reg) (b : Byte) : (s.setV r b).faultLog = s.faultLog := rfl
@[simp] theorem State.setV_draws (r : Reg) (b : Byte) : (s.setV r b).draws = s.draws := rfl

/-! ### setResultAndFlag -/
@[simp] theorem State.setResultAndFlag_i (x : Reg) (b : Byte) (c : Bool) : (s.setResultAndFlag x b c).i = s.i := rfl
@[simp] theorem State.setResultAndFlag_pc (x : Reg) (b : Byte) (c : Bool) : (s.setResultAndFlag x b c).pc = s.pc := rfl
@[simp] theorem State.setResultAndFlag_stack (x : Reg) (b : Byte) (c : Bool) : (s.setResultAndFlag x b c).stack = s.stack := rfl
@[simp] theorem State.setResultAndFlag_sp (x : Reg) (b : Byte) (c : Bool) : (s.setResultAndFlag x b c).sp = s.sp := rfl
@[simp] theorem State.setResultAndFlag_dt (x : Reg) (b : Byte) (c : Bool) : (s.setResultAndFlag x b c).dt = s.dt := rfl
@[simp] theorem State.setResultAndFlag_st (x : Reg) (b : Byte) (c : Bool) : (s.setResultAndFlag x b c).st = s.st := rfl
@[simp] theorem State.setResultAndFlag_fb (x : Reg) (b : Byte) (c : Bool) : (s.setResultAndFlag x b c).fb = s.fb := rfl
@[simp] theorem State.setResultAndFlag_keys (x : Reg) (b : Byte) (c : Bool) : (s.setResultAndFlag x b c).keys = s.keys := rfl
@[simp] theorem State.setResultAndFlag_mem (x : Reg) (b : Byte) (c : Bool) : (s.setResultAndFlag x b c).mem = s.mem := rfl
@[simp] theorem State.setResultAndFlag_outcome (x : Reg) (b : Byte) (c : Bool) : (s.setResultAndFlag x b c).outcome = s.outcome := rfl
@[simp] theorem State.setResultAndFlag_faultLog (x : Reg) (b : Byte) (c : Bool) : (s.setResultAndFlag x b c).faultLog = s.faultLog := rfl
@[simp] theorem State.setResultAndFlag_draws (x : Reg) (b : Byte) (c : Bool) : (s.setResultAndFlag x b c).draws = s.draws := rfl

/-! ### setVUpTo -/
@[simp] theorem State.setVUpTo_i (x : Reg) (f : Reg → Byte) : (s.setVUpTo x f).i = s.i := rfl
@[simp] theorem State.setVUpTo_pc (x : Reg) (f : Reg → Byte) : (s.setVUpTo x f).pc = s.pc := rfl
@[simp] theorem State.setVUpTo_stack (x : Reg) (f : Reg → Byte) : (s.setVUpTo x f).stack = s.stack := rfl
@[simp] theorem State.setVUpTo_sp (x : Reg) (f : Reg → Byte) : (s.setVUpTo x f).sp = s.sp := rfl
@[simp] theorem State.setVUpTo_dt (x : Reg) (f : Reg → Byte) : (s.setVUpTo x f).dt = s.dt := rfl
@[simp] theorem State.setVUpTo_st (x : Reg) (f : Reg → Byte) : (s.setVUpTo x f).st = s.st := rfl
@[simp] theorem State.setVUpTo_fb (x : Reg) (f : Reg → Byte) : (s.setVUpTo x f).fb = s.fb := rfl
@[simp] theorem State.setVUpTo_keys (x : Reg) (f : Reg → Byte) : (s.setVUpTo x f).keys = s.keys := rfl
@[simp] theorem State.setVUpTo_mem (x : Reg) (f : Reg → Byte) : (s.setVUpTo x f).mem = s.mem := rfl
@[simp] theorem State.setVUpTo_outcome (x : Reg) (f : Reg → Byte) : (s.setVUpTo x f).outcome = s.outcome := rfl
@[simp] theorem State.setVUpTo_faultLog (x : Reg) (f : Reg → Byte) : (s.setVUpTo x f).faultLog = s.faultLog := rfl
@[simp] theorem State.setVUpTo_draws (x : Reg) (f : Reg → Byte) : (s.setVUpTo x f).draws = s.draws := rfl

/-! ### setI -/
@[simp] theorem State.setI_v (a : Word) : (s.setI a).v = s.v := rfl
@[simp] theorem State.setI_i (a : Word) : (s.setI a).i = a := rfl
@[simp] theorem State.setI_pc (a : Word) : (s.setI a).pc = s.pc := rfl
@[simp] theorem State.setI_stack (a : Word) : (s.setI a).stack = s.stack := rfl
@[simp] theorem State.setI_sp (a : Word) : (s.setI a).sp = s.sp := rfl
@[simp] theorem State.setI_dt (a : Word) : (s.setI a).dt = s.dt := rfl
@[simp] theorem State.setI_st (a : Word) : (s.setI a).st = s.st := rfl
@[simp] theorem State.setI_fb (a : Word) : (s.setI a).fb = s.fb := rfl
@[simp] theorem State.setI_keys (a : Word) : (s.setI a).keys = s.keys := rfl
@[simp] theorem State.setI_mem (a : Word) : (s.setI a).mem = s.mem := rfl
@[simp] theorem State.setI_outcome (a : Word) : (s.setI a).outcome = s.outcome := rfl
@[simp] theorem State.setI_faultLog (a : Word) : (s.setI a).faultLog = s.faultLog := rfl
@[simp] theorem State.setI_draws (a : Word) : (s.setI a).draws = s.draws := rfl
@[simp] theorem State.setI_getV (a : Word) (q : Reg) : (s.setI a).getV q = s.getV q := rfl

/-! ### setDt -/
@[simp] theorem State.setDt_v (b : Byte) : (s.setDt b).v = s.v := rfl
@[simp] theorem State.setDt_i (b : Byte) : (s.setDt b).i = s.i := rfl
@[simp] theorem State.setDt_pc (b : Byte) : (s.setDt b).pc = s.pc := rfl
@[simp] theorem State.setDt_stack (b : Byte) : (s.setDt b).stack = s.stack := rfl
@[simp] theorem State.setDt_sp (b : Byte) : (s.setDt b).sp = s.sp := rfl
@[simp] theorem State.setDt_dt (b : Byte) : (s.setDt b).dt = b := rfl
@[simp] theorem State.setDt_st (b : Byte) : (s.setDt b).st = s.st := rfl
@[simp] theorem State.setDt_fb (b : Byte) : (s.setDt b).fb = s.fb := rfl
@[simp] theorem State.setDt_keys (b : Byte) : (s.setDt b).keys = s.keys := rfl
@[simp] theorem State.setDt_mem (b : Byte) : (s.setDt b).mem = s.mem := rfl
@[simp] theorem State.setDt_outcome (b : Byte) : (s.setDt b).outcome = s.outcome := rfl
@[simp] theorem State.setDt_faultLog (b : Byte) : (s.setDt b).faultLog = s.faultLog := rfl
@[simp] theorem State.setDt_draws (b : Byte) : (s.setDt b).draws = s.draws := rfl
@[simp] theorem State.setDt_getV (b : Byte) (q : Reg) : (s.setDt b).getV q = s.getV q := rfl

/-! ### setSt -/
@[simp] theorem State.setSt_v (b : Byte) : (s.setSt b).v = s.v := rfl
@[simp] theorem State.setSt_i (b : Byte) : (s.setSt b).i = s.i := rfl
@[simp] theorem State.setSt_pc (b : Byte) : (s.setSt b).pc = s.pc := rfl
@[simp] theorem State.setSt_stack (b : Byte) : (s.setSt b).stack = s.stack := rfl
@[simp] theorem State.setSt_sp (b : Byte) : (s.setSt b).sp = s.sp := rfl
@[simp] theorem State.setSt_dt (b : Byte) : (s.setSt b).dt = s.dt := rfl
@[simp] theorem State.setSt_st (b : Byte) : (s.setSt b).st = b := rfl
@[simp] theorem State.setSt_fb (b : Byte) : (s.setSt b).fb = s.fb := rfl
@[simp] theorem State.setSt_keys (b : Byte) : (s.setSt b).keys = s.keys := rfl
@[simp] theorem State.setSt_mem (b : Byte) : (s.setSt b).mem = s.mem := rfl
@[simp] theorem State.setSt_outcome (b : Byte) : (s.setSt b).outcome = s.outcome := rfl
@[simp] theorem State.setSt_faultLog (b : Byte) : (s.setSt b).faultLog = s.faultLog := rfl
@[simp] theorem State.setSt_draws (b : Byte) : (s.setSt b).draws = s.draws := rfl
@[simp] theorem State.setSt_getV (b : Byte) (q : Reg) : (s.setSt b).getV q = s.getV q := rfl

/-! ### setFb -/
@[simp] theorem State.setFb_v (f : Framebuffer) : (s.setFb f).v = s.v := rfl
@[simp] theorem State.setFb_i (f : Framebuffer) : (s.setFb f).i = s.i := rfl
@[simp] theorem State.setFb_pc (f : Framebuffer) : (s.setFb f).pc = s.pc := rfl
@[simp] theorem State.setFb_stack (f : Framebuffer) : (s.setFb f).stack = s.stack := rfl
@[simp] theorem State.setFb_sp (f : Framebuffer) : (s.setFb f).sp = s.sp := rfl
@[simp] theorem State.setFb_dt (f : Framebuffer) : (s.setFb f).dt = s.dt := rfl
@[simp] theorem State.setFb_st (f : Framebuffer) : (s.setFb f).st = s.st := rfl
@[simp] theorem State.setFb_fb (f : Framebuffer) : (s.setFb f).fb = f := rfl
@[simp] theorem State.setFb_keys (f : Framebuffer) : (s.setFb f).keys = s.keys := rfl
@[simp] theorem State.setFb_mem (f : Framebuffer) : (s.setFb f).mem = s.mem := rfl
@[simp] theorem State.setFb_outcome (f : Framebuffer) : (s.setFb f).outcome = s.outcome := rfl
@[simp] theorem State.setFb_faultLog (f : Framebuffer) : (s.setFb f).faultLog = s.faultLog := rfl
@[simp] theorem State.setFb_draws (f : Framebuffer) : (s.setFb f).draws = s.draws := rfl
@[simp] theorem State.setFb_getV (f : Framebuffer) (q : Reg) : (s.setFb f).getV q = s.getV q := rfl

/-! ### setKeys -/
@[simp] theorem State.setKeys_v (k : Keys) : (s.setKeys k).v = s.v := rfl
@[simp] theorem State.setKeys_i (k : Keys) : (s.setKeys k).i = s.i := rfl
@[simp] theorem State.setKeys_pc (k : Keys) : (s.setKeys k).pc = s.pc := rfl
@[simp] theorem State.setKeys_stack (k : Keys) : (s.setKeys k).stack = s.stack := rfl
@[simp] theorem State.setKeys_sp (k : Keys) : (s.setKeys k).sp = s.sp := rfl
@[simp] theorem State.setKeys_dt (k : Keys) : (s.setKeys k).dt = s.dt := rfl
@[simp] theorem State.setKeys_st (k : Keys) : (s.setKeys k).st = s.st := rfl
@[simp] theorem State.setKeys_fb (k : Keys) : (s.setKeys k).fb = s.fb := rfl
@[simp] theorem State.setKeys_keys (k : Keys) : (s.setKeys k).keys = k := rfl
@[simp] theorem State.setKeys_mem (k : Keys) : (s.setKeys k).mem = s.mem := rfl
@[simp] theorem State.setKeys_outcome (k : Keys) : (s.setKeys k).outcome = s.outcome := rfl
@[simp] theorem State.setKeys_faultLog (k : Keys) : (s.setKeys k).faultLog = s.faultLog := rfl
@[simp] theorem State.setKeys_draws (k : Keys) : (s.setKeys k).draws = s.draws := rfl
@[simp] theorem State.setKeys_getV (k : Keys) (q : Reg) : (s.setKeys k).getV q = s.getV q := rfl

/-! ### store -/
@[simp] theorem State.store_v (a : Nat) (bs : List Byte) : (s.store a bs).v = s.v := rfl
@[simp] theorem State.store_i (a : Nat) (bs : List Byte) : (s.store a bs).i = s.i := rfl
@[simp] theorem State.store_pc (a : Nat) (bs : List Byte) : (s.store a bs).pc = s.pc := rfl
@[simp] theorem State.store_stack (a : Nat) (bs : List Byte) : (s.store a bs).stack = s.stack := rfl
@[simp] theorem State.store_sp (a : Nat) (bs : List Byte) : (s.store a bs).sp = s.sp := rfl
@[simp] theorem State.store_dt (a : Nat) (bs : List Byte) : (s.store a bs).dt = s.dt := rfl
@[simp] theorem State.store_st (a : Nat) (bs : List Byte) : (s.store a bs).st = s.st := rfl
@[simp] theorem State.store_fb (a : Nat) (bs : List Byte) : (s.store a bs).fb = s.fb := rfl
@[simp] theorem State.store_keys (a : Nat) (bs : List Byte) : (s.store a bs).keys = s.keys := rfl
@[simp] theorem State.store_mem (a : Nat) (bs : List Byte) : (s.store a bs).mem = s.mem.writeBytes a bs := rfl
@[simp] theorem State.store_outcome (a : Nat) (bs : List Byte) : (s.store a bs).outcome = s.outcome := rfl
@[simp] theorem State.store_faultLog (a : Nat) (bs : List Byte) : (s.store a bs).faultLog = s.faultLog := rfl
@[simp] theorem State.store_draws (a : Nat) (bs : List Byte) : (s.store a bs).draws = s.draws := rfl
@[simp] theorem State.store_getV (a : Nat) (bs : List Byte) (q : Reg) : (s.store a bs).getV q = s.getV q := rfl

/-! ### consumeDraw -/
@[simp] theorem State.consumeDraw_v : (s.consumeDraw).v = s.v := rfl
@[simp] theorem State.consumeDraw_i : (s.consumeDraw).i = s.i := rfl
@[simp] theorem State.consumeDraw_pc : (s.consumeDraw).pc = s.pc := rfl
@[simp] theorem State.consumeDraw_stack : (s.consumeDraw).stack = s.stack := rfl
@[simp] theorem State.consumeDraw_sp : (s.consumeDraw).sp = s.sp := rfl
@[simp] theorem State.consumeDraw_dt : (s.consumeDraw).dt = s.dt := rfl
@[simp] theorem State.consumeDraw_st : (s.consumeDraw).st = s.st := rfl
@[simp] theorem State.consumeDraw_fb : (s.consumeDraw).fb = s.fb := rfl
@[simp] theorem State.consumeDraw_keys : (s.consumeDraw).keys = s.keys := rfl
@[simp] theorem State.consumeDraw_mem : (s.consumeDraw).mem = s.mem := rfl
@[simp] theorem State.consumeDraw_outcome : (s.consumeDraw).outcome = s.outcome := rfl
@[simp] theorem State.consumeDraw_faultLog : (s.consumeDraw).faultLog = s.faultLog := rfl
@[simp] theorem State.consumeDraw_draws : (s.consumeDraw).draws = s.draws + 1 := rfl
@[simp] theorem State.consumeDraw_getV (q : Reg) : (s.consumeDraw).getV q = s.getV q := rfl

/-! ### complete -/
@[simp] theorem State.complete_v (a : Word) : (s.complete a).v = s.v := rfl
@[simp] theorem State.complete_i (a : Word) : (s.complete a).i = s.i := rfl
@[simp] theorem State.complete_pc (a : Word) : (s.complete a).pc = a := rfl
@[simp] theorem State.complete_stack (a : Word) : (s.complete a).stack = s.stack := rfl
@[simp] theorem State.complete_sp (a : Word) : (s.complete a).sp = s.sp := rfl
@[simp] theorem State.complete_dt (a : Word) : (s.complete a).dt = s.dt := rfl
@[simp] theorem State.complete_st (a : Word) : (s.complete a).st = s.st := rfl
@[simp] theorem State.complete_fb (a : Word) : (s.complete a).fb = s.fb := rfl
@[simp] theorem State.complete_keys (a : Word) : (s.complete a).keys = s.keys := rfl
@[simp] theorem State.complete_mem (a : Word) : (s.complete a).mem = s.mem := rfl
@[simp] theorem State.complete_outcome (a : Word) : (s.complete a).outcome = .ok := rfl
@[simp] theorem State.complete_faultLog (a : Word) : (s.complete a).faultLog = s.faultLog := rfl
@[simp] theorem State.complete_draws (a : Word) : (s.complete a).draws = s.draws := rfl
@[simp] theorem State.complete_getV (a : Word) (q : Reg) : (s.complete a).getV q = s.getV q := rfl

/-! ### advance -/
@[simp] theorem State.advance_v : (s.advance).v = s.v := rfl
@[simp] theorem State.advance_i : (s.advance).i = s.i := rfl
@[simp] theorem State.advance_pc : (s.advance).pc = s.pc + 2#16 := rfl
@[simp] theorem State.advance_stack : (s.advance).stack = s.stack := rfl
@[simp] theorem State.advance_sp : (s.advance).sp = s.sp := rfl
@[simp] theorem State.advance_dt : (s.advance).dt = s.dt := rfl
@[simp] theorem State.advance_st : (s.advance).st = s.st := rfl
@[simp] theorem State.advance_fb : (s.advance).fb = s.fb := rfl
@[simp] theorem State.advance_keys : (s.advance).keys = s.keys := rfl
@[simp] theorem State.advance_mem : (s.advance).mem = s.mem := rfl
@[simp] theorem State.advance_outcome : (s.advance).outcome = .ok := rfl
@[simp] theorem State.advance_faultLog : (s.advance).faultLog = s.faultLog := rfl
@[simp] theorem State.advance_draws : (s.advance).draws = s.draws := rfl
@[simp] theorem State.advance_getV (q : Reg) : (s.advance).getV q = s.getV q := rfl

/-! ### skipIf -/
@[simp] theorem State.skipIf_v (c : Bool) : (s.skipIf c).v = s.v := rfl
@[simp] theorem State.skipIf_i (c : Bool) : (s.skipIf c).i = s.i := rfl
@[simp] theorem State.skipIf_pc (c : Bool) : (s.skipIf c).pc = if c then s.pc + 4#16 else s.pc + 2#16 := rfl
@[simp] theorem State.skipIf_stack (c : Bool) : (s.skipIf c).stack = s.stack := rfl
@[simp] theorem State.skipIf_sp (c : Bool) : (s.skipIf c).sp = s.sp := rfl
@[simp] theorem State.skipIf_dt (c : Bool) : (s.skipIf c).dt = s.dt := rfl
@[simp] theorem State.skipIf_st (c : Bool) : (s.skipIf c).st = s.st := rfl
@[simp] theorem State.skipIf_fb (c : Bool) : (s.skipIf c).fb = s.fb := rfl
@[simp] theorem State.skipIf_keys (c : Bool) : (s.skipIf c).keys = s.keys := rfl
@[simp] theorem State.skipIf_mem (c : Bool) : (s.skipIf c).mem = s.mem := rfl
@[simp] theorem State.skipIf_outcome (c : Bool) : (s.skipIf c).outcome = .ok := rfl
@[simp] theorem State.skipIf_faultLog (c : Bool) : (s.skipIf c).faultLog = s.faultLog := rfl
@[simp] theorem State.skipIf_draws (c : Bool) : (s.skipIf c).draws = s.draws := rfl
@[simp] theorem State.skipIf_getV (c : Bool) (q : Reg) : (s.skipIf c).getV q = s.getV q := rfl

/-! ### block -/
@[simp] theorem State.block_v : (s.block).v = s.v := rfl
@[simp] theorem State.block_i : (s.block).i = s.i := rfl
@[simp] theorem State.block_pc : (s.block).pc = s.pc := rfl
@[simp] theorem State.block_stack : (s.block).stack = s.stack := rfl
@[simp] theorem State.block_sp : (s.block).sp = s.sp := rfl
@[simp] theorem State.block_dt : (s.block).dt = s.dt := rfl
@[simp] theorem State.block_st : (s.block).st = s.st := rfl
@[simp] theorem State.block_fb : (s.block).fb = s.fb := rfl
@[simp] theorem State.block_keys : (s.block).keys = s.keys := rfl
@[simp] theorem State.block_mem : (s.block).mem = s.mem := rfl
@[simp] theorem State.block_outcome : (s.block).outcome = .blocked := rfl
@[simp] theorem State.block_faultLog : (s.block).faultLog = s.faultLog := rfl
@[simp] theorem State.block_draws : (s.block).draws = s.draws := rfl
@[simp] theorem State.block_getV (q : Reg) : (s.block).getV q = s.getV q := rfl

/-! ### report -/
@[simp] theorem State.report_v (f : Fault) : (s.report f).v = s.v := rfl
@[simp] theorem State.report_i (f : Fault) : (s.report f).i = s.i := rfl
@[simp] theorem State.report_pc (f : Fault) : (s.report f).pc = s.pc := rfl
@[simp] theorem State.report_stack (f : Fault) : (s.report f).stack = s.stack := rfl
@[simp] theorem State.report_sp (f : Fault) : (s.report f).sp = s.sp := rfl
@[simp] theorem State.report_dt (f : Fault) : (s.report f).dt = s.dt := rfl
@[simp] theorem State.report_st (f : Fault) : (s.report f).st = s.st := rfl
@[simp] theorem State.report_fb (f : Fault) : (s.report f).fb = s.fb := rfl
@[simp] theorem State.report_keys (f : Fault) : (s.report f).keys = s.keys := rfl
@[simp] theorem State.report_mem (f : Fault) : (s.report f).mem = s.mem := rfl
@[simp] theorem State.report_outcome (f : Fault) : (s.report f).outcome = .fault f := rfl
@[simp] theorem State.report_faultLog (f : Fault) : (s.report f).faultLog = s.faultLog ++ [f] := rfl
@[simp] theorem State.report_draws (f : Fault) : (s.report f).draws = s.draws := rfl
@[simp] theorem State.report_getV (f : Fault) (q : Reg) : (s.report f).getV q = s.getV q := rfl

/-! ### continueFault -/
@[simp] theorem State.continueFault_v (f : Fault) : (s.continueFault f).v = s.v := rfl
@[simp] theorem State.continueFault_i (f : Fault) : (s.continueFault f).i = s.i := rfl
@[simp] theorem State.continueFault_pc (f : Fault) : (s.continueFault f).pc = s.pc + 2#16 := rfl
@[simp] theorem State.continueFault_stack (f : Fault) : (s.continueFault f).stack = s.stack := rfl
@[simp] theorem State.continueFault_sp (f : Fault) : (s.continueFault f).sp = s.sp := rfl
@[simp] theorem State.continueFault_dt (f : Fault) : (s.continueFault f).dt = s.dt := rfl
@[simp] theorem State.continueFault_st (f : Fault) : (s.continueFault f).st = s.st := rfl
@[simp] theorem State.continueFault_fb (f : Fault) : (s.continueFault f).fb = s.fb := rfl
@[simp] theorem State.continueFault_keys (f : Fault) : (s.continueFault f).keys = s.keys := rfl
@[simp] theorem State.continueFault_mem (f : Fault) : (s.continueFault f).mem = s.mem := rfl
@[simp] theorem State.continueFault_outcome (f : Fault) : (s.continueFault f).outcome = .fault f := rfl
@[simp] theorem State.continueFault_faultLog (f : Fault) : (s.continueFault f).faultLog = s.faultLog ++ [f] := rfl
@[simp] theorem State.continueFault_draws (f : Fault) : (s.continueFault f).draws = s.draws := rfl
@[simp] theorem State.continueFault_getV (f : Fault) (q : Reg) : (s.continueFault f).getV q = s.getV q := rfl

/-! ### tick -/
@[simp] theorem State.tick_v : (s.tick).v = s.v := rfl
@[simp] theorem State.tick_i : (s.tick).i = s.i := rfl
@[simp] theorem State.tick_pc : (s.tick).pc = s.pc := rfl
@[simp] theorem State.tick_stack : (s.tick).stack = s.stack := rfl
@[simp] theorem State.tick_sp : (s.tick).sp = s.sp := rfl
@[simp] theorem State.tick_dt : (s.tick).dt = tickTimer s.dt := rfl
@[simp] theorem State.tick_st : (s.tick).st = tickTimer s.st := rfl
@[simp] theorem State.tick_fb : (s.tick).fb = s.fb := rfl
@[simp] theorem State.tick_keys : (s.tick).keys = s.keys := rfl
@[simp] theorem State.tick_mem : (s.tick).mem = s.mem := rfl
@[simp] theorem State.tick_outcome : (s.tick).outcome = s.outcome := rfl
@[simp] theorem State.tick_faultLog : (s.tick).faultLog = s.faultLog := rfl
@[simp] theorem State.tick_draws : (s.tick).draws = s.draws := rfl
@[simp] theorem State.tick_getV (q : Reg) : (s.tick).getV q = s.getV q := rfl

/-! ### Reading registers after a write -/

@[simp] theorem vf_eq : Reg.vf = 15 := rfl

@[simp] theorem State.setV_getV (r q : Reg) (b : Byte) :
    (s.setV r b).getV q = if r = q then b else s.getV q := by
  simp only [State.getV, State.setV, Vector.get_eq_getElem, Vector.getElem_set, Fin.ext_iff]

@[simp] theorem State.setVUpTo_getV (x : Reg) (f : Reg → Byte) (q : Reg) :
    (s.setVUpTo x f).getV q = if q ≤ x then f q else s.getV q := by
  simp [State.getV, State.setVUpTo, Vector.get_eq_getElem]

@[simp] theorem State.setResultAndFlag_getV (x : Reg) (b : Byte) (c : Bool) (q : Reg) :
    (s.setResultAndFlag x b c).getV q =
      if 15 = q then flagByte c else if x = q then b else s.getV q := by
  simp [State.setResultAndFlag]

/-- Each key-dependent and register-dependent operand is a function of the fields it reads. -/
theorem State.keyOf_eq (r : Reg) : s.keyOf r = s.keys.get (keyIndex (s.getV r)) := rfl

end Sys2Proof.Machine
end

