-- ==== Sys2Proof/Laws/Memory.lean ====
section
/-! SUPPORT. The laws of memory: a read after a write to the same place gives the value written, a
write leaves every other place alone, and every write keeps the canonical form. -/

namespace Sys2Proof.Machine

@[simp] theorem Memory.wf_nil : Memory.wf [] = true := rfl

@[simp] theorem Memory.read_nil (a : Nat) : Memory.read [] a = Memory.resetByte a := rfl

theorem Memory.wfFrom_cons {lo k : Nat} {b : Byte} {m : Memory} :
    Memory.wfFrom lo ((k, b) :: m) = true ↔
      lo ≤ k ∧ k < Config.memSize ∧ b ≠ Memory.resetByte k ∧ Memory.wfFrom (k + 1) m = true := by
  simp [Memory.wfFrom, and_assoc]

theorem Memory.wfFrom_weaken {lo lo' : Nat} {m : Memory} (hle : lo' ≤ lo)
    (h : Memory.wfFrom lo m = true) : Memory.wfFrom lo' m = true := by
  cases m with
  | nil => rfl
  | cons e m =>
    obtain ⟨k, b⟩ := e
    rw [Memory.wfFrom_cons] at h ⊢
    exact ⟨hle.trans h.1, h.2⟩

/-- Below the first listed address every byte reads as at reset. -/
theorem Memory.read_below {lo a : Nat} {m : Memory} (h : Memory.wfFrom lo m = true) (ha : a < lo) :
    m.read a = Memory.resetByte a := by
  induction m generalizing lo with
  | nil => rfl
  | cons e m ih =>
    obtain ⟨k, b⟩ := e
    rw [Memory.wfFrom_cons] at h
    have hk : k ≠ a := by omega
    simp only [Memory.read, hk, if_false]
    exact ih h.2.2.2 (by omega)

theorem Memory.read_write_of_wfFrom {lo a c : Nat} {b : Byte} {m : Memory}
    (h : Memory.wfFrom lo m = true) :
    (m.write a b).read c = if c = a then b else m.read c := by
  induction m generalizing lo with
  | nil =>
    by_cases hc : c = a
    · subst hc
      by_cases hb : b = Memory.resetByte c <;> simp [Memory.write, Memory.read, hb]
    · have hc' : ¬ a = c := fun h => hc h.symm
      by_cases hb : b = Memory.resetByte a <;> simp [Memory.write, Memory.read, hb, hc, hc']
  | cons e m ih =>
    obtain ⟨k, v⟩ := e
    rw [Memory.wfFrom_cons] at h
    obtain ⟨-, -, -, hm⟩ := h
    simp only [Memory.write]
    rcases lt_trichotomy a k with hak | rfl | hak
    · have below : (Memory.read ((k, v) :: m) a) = Memory.resetByte a := by
        have : k ≠ a := by omega
        simp only [Memory.read, this, if_false]
        exact Memory.read_below hm (by omega)
      by_cases hb : b = Memory.resetByte a
      · by_cases hc : c = a
        · subst hc; simp [hak, hb, below]
        · simp [hak, hb, hc]
      · by_cases hc : c = a
        · simp [hak, hb, hc, Memory.read]
        · have hc' : ¬ a = c := fun h => hc h.symm
          simp [hak, hb, hc, hc', Memory.read]
    · by_cases hb : b = Memory.resetByte a
      · by_cases hc : c = a
        · subst hc
          simp [hb, Memory.read_below hm]
        · have hc' : ¬ a = c := fun h => hc h.symm
          simp [hb, hc, hc', Memory.read]
      · by_cases hc : c = a
        · simp [hb, hc, Memory.read]
        · have hc' : ¬ a = c := fun h => hc h.symm
          simp [hb, hc, hc', Memory.read]
    · have h1 : ¬ a < k := by omega
      have h2 : ¬ a = k := by omega
      simp only [h1, h2, if_false, Memory.read, ih hm]
      by_cases hck : k = c
      · have : ¬ c = a := by omega
        simp [hck, this]
      · simp [hck]

/-- A read after a write: the byte written at its address, the old byte everywhere else. -/
theorem Memory.read_write {m : Memory} (h : m.wf = true) (a c : Nat) (b : Byte) :
    (m.write a b).read c = if c = a then b else m.read c :=
  Memory.read_write_of_wfFrom h

theorem Memory.wfFrom_write {lo a : Nat} {b : Byte} {m : Memory} (h : Memory.wfFrom lo m = true)
    (hlo : lo ≤ a) (ha : a < Config.memSize) : Memory.wfFrom lo (m.write a b) = true := by
  induction m generalizing lo with
  | nil =>
    by_cases hb : b = Memory.resetByte a
    · simp [Memory.write, hb, Memory.wfFrom]
    · simp only [Memory.write, hb, if_false, Memory.wfFrom_cons]
      exact ⟨hlo, ha, hb, rfl⟩
  | cons e m ih =>
    obtain ⟨k, v⟩ := e
    rw [Memory.wfFrom_cons] at h
    simp only [Memory.write]
    split
    · split
      · exact Memory.wfFrom_cons.2 h
      · exact Memory.wfFrom_cons.2 ⟨hlo, ha, ‹_›, Memory.wfFrom_cons.2 ⟨by omega, h.2⟩⟩
    · split
      · split
        · exact Memory.wfFrom_weaken (by omega) h.2.2.2
        · subst k
          exact Memory.wfFrom_cons.2 ⟨hlo, ha, ‹_›, h.2.2.2⟩
      · exact Memory.wfFrom_cons.2 ⟨h.1, h.2.1, h.2.2.1, ih h.2.2.2 (by omega)⟩

/-- A write inside memory keeps the canonical form. -/
theorem Memory.wf_write {m : Memory} (h : m.wf = true) {a : Nat} (ha : a < Config.memSize)
    (b : Byte) : (m.write a b).wf = true :=
  Memory.wfFrom_write h (Nat.zero_le a) ha

/-- Bytes written inside memory keep the canonical form. -/
theorem Memory.wf_writeBytes {m : Memory} (h : m.wf = true) {a : Nat} {bs : List Byte}
    (ha : a + bs.length ≤ Config.memSize) : (m.writeBytes a bs).wf = true := by
  induction bs generalizing m a with
  | nil => exact h
  | cons b bs ih =>
    simp only [List.length_cons] at ha
    exact ih (Memory.wf_write h (by omega) b) (by omega)

/-- After several bytes are written inside memory, each of them reads back at its address and every
other address reads as before. -/
theorem Memory.read_writeBytes {m : Memory} (h : m.wf = true) {a : Nat} {bs : List Byte}
    (ha : a + bs.length ≤ Config.memSize) (c : Nat) :
    (m.writeBytes a bs).read c =
      if a ≤ c ∧ c < a + bs.length then bs.getD (c - a) 0#8 else m.read c := by
  induction bs generalizing m a with
  | nil =>
    simp [Memory.writeBytes]
  | cons b bs ih =>
    simp only [List.length_cons] at ha
    have hw := Memory.wf_write h (a := a) (by omega) b
    simp only [Memory.writeBytes, ih hw (a := a + 1) (by omega), Memory.read_write h,
      List.length_cons]
    by_cases hc : c = a
    · subst hc
      simp
    · by_cases hin : a + 1 ≤ c ∧ c < a + 1 + bs.length
      · have h1 : a ≤ c ∧ c < a + (bs.length + 1) := by omega
        have h2 : c - a = (c - (a + 1)) + 1 := by omega
        rw [if_pos hin, if_pos h1, h2, List.getD_cons_succ]
      · have h1 : ¬ (a ≤ c ∧ c < a + (bs.length + 1)) := by omega
        rw [if_neg hin, if_neg h1, if_neg hc]

@[simp] theorem Memory.readBytes_length (m : Memory) (a n : Nat) :
    (m.readBytes a n).length = n := by
  induction n generalizing a with
  | zero => rfl
  | succ n ih => simp [Memory.readBytes, ih]

/-- The bytes read are those at the successive addresses. -/
theorem Memory.getD_readBytes (m : Memory) (a n k : Nat) (hk : k < n) :
    (m.readBytes a n).getD k 0#8 = m.read (a + k) := by
  induction n generalizing a k with
  | zero => omega
  | succ n ih =>
    cases k with
    | zero => rfl
    | succ k =>
      rw [Memory.readBytes, List.getD_cons_succ, ih _ _ (by omega)]
      congr 1; omega

end Sys2Proof.Machine
end

