-- ==== Sys2Proof/Laws/Ops.lean ====
section
/-! SUPPORT. One lemma per shared operation that says everything it can do; proofs about instructions
cite these and never unfold the operations. -/

namespace Sys2Proof.Machine

/-- A push answers exactly when a slot is free; the value goes to slot `sp`. -/
theorem State.push_cases (s : State) (a : Word) :
    (∃ (h : s.sp.val < 16) (t : State), s.push a = some t ∧
      t = { s with stack := s.stack.set s.sp.val a, sp := ⟨s.sp.val + 1, by omega⟩ }) ∨
    (s.sp.val = 16 ∧ s.push a = none) := by
  by_cases h : s.sp.val < 16
  · exact .inl ⟨h, _, by simp [State.push, h], rfl⟩
  · exact .inr ⟨by omega, by simp [State.push, h]⟩

/-- A pop answers exactly when the stack is not empty; the value is that of slot `sp - 1`. -/
theorem State.pop_cases (s : State) :
    (∃ (h : 0 < s.sp.val) (t : State),
      s.pop = some (s.stack.get ⟨s.sp.val - 1, by omega⟩, t) ∧
      t = { s with sp := ⟨s.sp.val - 1, by omega⟩ }) ∨
    (s.sp.val = 0 ∧ s.pop = none) := by
  by_cases h : 0 < s.sp.val
  · exact .inl ⟨h, _, by simp [State.pop, h, Vector.get_eq_getElem], rfl⟩
  · exact .inr ⟨by omega, by simp [State.pop, h]⟩

/-- The range check either goes on with `I`, every access being inside memory, or aborts. -/
theorem withRange_cases (s : State) (n : Nat) (go : Nat → Result) :
    ((n = 0 ∨ s.i.toNat + n ≤ Config.memSize) ∧ withRange s n go = go s.i.toNat) ∨
    ((1 ≤ n ∧ Config.memSize < s.i.toNat + n) ∧
      withRange s n go = .fault (.addressFault (max s.i.toNat Config.memSize))) := by
  by_cases h : 1 ≤ n ∧ Config.memSize ≤ s.i.toNat + n - 1
  · exact .inr ⟨⟨h.1, by omega⟩, by simp [withRange, h]⟩
  · exact .inl ⟨by omega, by simp [withRange, h]⟩

/-- The stored registers: V0 to Vx in order. -/
theorem State.regsUpTo_length (s : State) (x : Reg) : (s.regsUpTo x).length = x.val + 1 := by
  simp [State.regsUpTo]

theorem State.getD_regsUpTo (s : State) (x j : Reg) (h : j ≤ x) :
    (s.regsUpTo x).getD j.val 0#8 = s.getV j := by
  have h1 : j.val < x.val + 1 := Nat.lt_succ_of_le h
  simp [State.regsUpTo, State.getV, Vector.get_eq_getElem, List.getD_eq_getElem?_getD, h1]

@[simp] theorem bcdDigits_length (b : Byte) : (bcdDigits b).length = 3 := rfl

theorem lowestKeyFrom_none {keys : Keys} {fuel k : Nat} (h : lowestKeyFrom keys fuel k = none) :
    ∀ j, k ≤ j → j < k + fuel → keys.get (Fin.ofNat 16 j) = false := by
  induction fuel generalizing k with
  | zero => intro j h1 h2; omega
  | succ fuel ih =>
    simp only [lowestKeyFrom] at h
    cases hk : keys.get (Fin.ofNat 16 k) with
    | true => rw [hk, if_pos rfl] at h; exact nomatch h
    | false =>
      rw [hk, if_neg (by decide)] at h
      intro j h1 h2
      by_cases hj : j = k
      · subst hj; exact hk
      · exact ih h j (by omega) (by omega)

theorem lowestKeyFrom_some {keys : Keys} {fuel k r : Nat}
    (h : lowestKeyFrom keys fuel k = some r) :
    k ≤ r ∧ r < k + fuel ∧ keys.get (Fin.ofNat 16 r) = true ∧
      ∀ j, k ≤ j → j < r → keys.get (Fin.ofNat 16 j) = false := by
  induction fuel generalizing k with
  | zero => exact nomatch h
  | succ fuel ih =>
    simp only [lowestKeyFrom] at h
    cases hk : keys.get (Fin.ofNat 16 k) with
    | true =>
      rw [hk, if_pos rfl, Option.some.injEq] at h
      subst h
      exact ⟨le_refl _, by omega, hk, fun j h1 h2 => by omega⟩
    | false =>
      rw [hk, if_neg (by decide)] at h
      obtain ⟨h1, h2, h3, h4⟩ := ih h
      refine ⟨by omega, by omega, h3, fun j hj1 hj2 => ?_⟩
      by_cases hj : j = k
      · subst hj; exact hk
      · exact h4 j (by omega) hj2

/-- The key wait finds either no key pressed, or the pressed key of least index. -/
theorem lowestKey_cases (keys : Keys) :
    (lowestKey keys = none ∧ ∀ k, keys.get k = false) ∨
    (∃ k : Fin 16, lowestKey keys = some k.val ∧ keys.get k = true ∧
      ∀ j < k, keys.get j = false) := by
  have idx : ∀ k : Fin 16, Fin.ofNat 16 k.val = k := fun k => Fin.ext (Nat.mod_eq_of_lt k.isLt)
  cases hl : lowestKey keys with
  | none =>
    refine .inl ⟨rfl, fun k => ?_⟩
    have := lowestKeyFrom_none hl k.val (Nat.zero_le _) (by omega)
    rwa [idx] at this
  | some r =>
    obtain ⟨-, h2, h3, h4⟩ := lowestKeyFrom_some hl
    refine .inr ⟨⟨r, by omega⟩, rfl, ?_, fun j hj => ?_⟩
    · rw [← idx ⟨r, by omega⟩]; exact h3
    · rw [← idx j]; exact h4 j.val (Nat.zero_le _) hj

@[simp] theorem tickTimer_toNat (t : Byte) : (tickTimer t).toNat = t.toNat - 1 := by
  unfold tickTimer
  split
  · subst t; rfl
  · have : t.toNat ≠ 0 := fun h => ‹¬ t = 0#8› (BitVec.eq_of_toNat_eq h)
    rw [BitVec.toNat_sub]; simp; omega

end Sys2Proof.Machine
end

