-- ==== Sys2Proof/Laws/Cycle.lean ====
section
/-! SUPPORT. What one step can do: every claim about steps starts from `step_cases`. -/

namespace Sys2Proof.Machine

theorem tickAfter_next {r : Result} {t : State} (h : tickAfter r = .next t) :
    ∃ u, r = .next u ∧ t = u.tick := by
  cases r with
  | next u => exact ⟨u, rfl, by simpa [tickAfter] using h.symm⟩
  | fault f => exact nomatch h
  | refused r => exact nomatch h

/-- A step is the fetch fault, the illegal word's fault and a tick, or an instruction and a tick. -/
theorem step_cases (s : State) :
    (4094 < s.pc.toNat ∧ step s = .fault (.addressFault s.pc.toNat)) ∨
    (s.pc.toNat ≤ 4094 ∧ decodeWord s.fetchWord = none ∧
      step s = .next (s.continueFault (.unknownOpcode s.fetchWord s.pc)).tick) ∨
    (∃ i, s.pc.toNat ≤ 4094 ∧ decodeWord s.fetchWord = some i ∧ step s = tickAfter (exec i s)) := by
  by_cases hf : s.pc.toNat ≤ 4094
  · have hc : s.canFetch = true := by simp [State.canFetch, hf]
    cases hd : decodeWord s.fetchWord with
    | none => exact .inr (.inl ⟨hf, rfl, by simp [step, runCycle, hc, hd, execIllegal, tickAfter]⟩)
    | some i => exact .inr (.inr ⟨i, hf, rfl, by simp [step, runCycle, hc, hd]⟩)
  · have hc : s.canFetch = false := by simp [State.canFetch]; omega
    exact .inl ⟨by omega, by simp [step, runCycle, hc]⟩

/-- A word placed at PC is the word that is fetched there. -/
theorem State.fetchWord_placeWord (s : State) (w : Word) (hm : s.mem.wf = true)
    (hf : s.canFetch = true) : (s.placeWord w).fetchWord = w := by
  have hpc : s.pc.toNat ≤ 4094 := by simpa [State.canFetch] using hf
  have hr := fun c => Memory.read_writeBytes (bs := [highByte w, lowByte w]) hm
    (a := s.pc.toNat) (by simp only [List.length_cons, List.length_nil, Config.memSize]; omega) c
  simp [State.fetchWord, State.placeWord, hf, hr]

/-- What a host transaction does to the state: a next state of a step or a load, the record of a
fault that ended one, a reset, a key write, or nothing. -/
theorem State.transact_cases (s : State) (x : Transaction) :
    (∃ t, (step s = .next t ∨ ∃ image, s.load image = .next t) ∧ (s.transact x).1 = t) ∨
    (∃ f, (step s = .fault f ∨ ∃ image, s.load image = .fault f) ∧ (s.transact x).1 = s.report f) ∨
    (s.transact x).1 = s.resetAgain ∨ (∃ k, (s.transact x).1 = s.setKeys k) ∨
    (s.transact x).1 = s := by
  have answered : ∀ r : Result, (∃ t, r = .next t ∧ (s.answer r).1 = t) ∨
      (∃ f, r = .fault f ∧ (s.answer r).1 = s.report f) ∨ (s.answer r).1 = s := by
    intro r
    cases r with
    | next t => exact .inl ⟨t, rfl, rfl⟩
    | fault f => exact .inr (.inl ⟨f, rfl, rfl⟩)
    | refused q => exact .inr (.inr rfl)
  cases x with
  | reset => exact .inr (.inr (.inl rfl))
  | load image =>
    rcases answered (s.load image) with ⟨t, h, e⟩ | ⟨f, h, e⟩ | e
    · exact .inl ⟨t, .inr ⟨image, h⟩, e⟩
    · exact .inr (.inl ⟨f, .inr ⟨image, h⟩, e⟩)
    · exact .inr (.inr (.inr (.inr e)))
  | setKeys k => exact .inr (.inr (.inr (.inl ⟨k, rfl⟩)))
  | step =>
    rcases answered (step s) with ⟨t, h, e⟩ | ⟨f, h, e⟩ | e
    · exact .inl ⟨t, .inl h, e⟩
    · exact .inr (.inl ⟨f, .inl h, e⟩)
    · exact .inr (.inr (.inr (.inr e)))
  | readFramebuffer => exact .inr (.inr (.inr (.inr rfl)))
  | readSound => exact .inr (.inr (.inr (.inr rfl)))

end Sys2Proof.Machine
end

