-- ==== Sys2Proof/Laws/Display.lean ====
section
/-! SUPPORT. What the framebuffer operations do to a cell. -/

namespace Sys2Proof.Machine

@[simp] theorem Framebuffer.clear_cell (y : Fin 32) (x : Fin 64) :
    Framebuffer.clear.cell y x = false := by
  simp [Framebuffer.clear, Framebuffer.cell, Vector.get_eq_getElem]

/-- A flip inverts its own cell and no other. -/
theorem Framebuffer.flip_cell (fb : Framebuffer) (y y' : Fin 32) (x x' : Fin 64) :
    (fb.flip y x).cell y' x' = (fb.cell y' x' ^^ decide (y = y' ∧ x = x')) := by
  unfold Framebuffer.flip Framebuffer.cell
  simp only [Vector.get_eq_getElem]
  by_cases hy : y = y'
  · subst hy
    by_cases hx : x = x'
    · subst hx; simp
    · have : x.val ≠ x'.val := fun h => hx (Fin.ext h)
      simp [hx, Vector.getElem_set_ne, this]
  · have : y.val ≠ y'.val := fun h => hy (Fin.ext h)
    simp [hy, Vector.getElem_set_ne, this]

/-- From `a` to `b` exactly the cells of `P` are inverted, and the collision flag is raised exactly if
one of them was 1 (R147(c)). -/
structure Blit.Draws (a b : Blit) (P : Fin 32 → Fin 64 → Prop) : Prop where
  inside : ∀ y x, P y x → b.fb.cell y x = !a.fb.cell y x
  outside : ∀ y x, ¬ P y x → b.fb.cell y x = a.fb.cell y x
  hit : b.collision = true ↔ a.collision = true ∨ ∃ y x, P y x ∧ a.fb.cell y x = true

theorem Blit.Draws.congr {a b : Blit} {P Q : Fin 32 → Fin 64 → Prop} (h : a.Draws b P)
    (hPQ : ∀ y x, P y x ↔ Q y x) : a.Draws b Q := by
  have : P = Q := funext fun y => funext fun x => propext (hPQ y x)
  exact this ▸ h

theorem Blit.Draws.nothing (a : Blit) : a.Draws a fun _ _ => False where
  inside _ _ h := h.elim
  outside _ _ _ := rfl
  hit := by simp

/-- Two drawings on disjoint cells make one drawing on both. -/
theorem Blit.Draws.both {a b c : Blit} {P Q : Fin 32 → Fin 64 → Prop} (h1 : a.Draws b P)
    (h2 : b.Draws c Q) (disj : ∀ y x, P y x → ¬ Q y x) : a.Draws c fun y x => P y x ∨ Q y x where
  inside y x h := by
    rcases h with h | h
    · rw [h2.outside y x (disj y x h), h1.inside y x h]
    · rw [h2.inside y x h, h1.outside y x fun hp => disj y x hp h]
  outside y x h := by
    rw [h2.outside y x fun hq => h (.inr hq), h1.outside y x fun hp => h (.inl hp)]
  hit := by
    rw [h2.hit, h1.hit]
    constructor
    · rintro ((h | ⟨y, x, hp, hc⟩) | ⟨y, x, hq, hc⟩)
      · exact .inl h
      · exact .inr ⟨y, x, .inl hp, hc⟩
      · exact .inr ⟨y, x, .inr hq, h1.outside y x (fun hp => disj y x hp hq) ▸ hc⟩
    · rintro (h | ⟨y, x, hp | hq, hc⟩)
      · exact .inl (.inl h)
      · exact .inl (.inr ⟨y, x, hp, hc⟩)
      · exact .inr ⟨y, x, hq, (h1.outside y x fun hp => disj y x hp hq) ▸ hc⟩

theorem Blit.plot_draws (a : Blit) (x0 y0 : Nat) :
    a.Draws (a.plot x0 y0) fun y x => x0 % 64 = x.val ∧ y0 % 32 = y.val where
  inside y x h := by
    have hy : Fin.ofNat 32 y0 = y := Fin.ext h.2
    have hx : Fin.ofNat 64 x0 = x := Fin.ext h.1
    simp only [Blit.plot, Framebuffer.flip_cell, hy, hx, and_self, decide_true, Bool.xor_true]
  outside y x h := by
    have : ¬ (Fin.ofNat 32 y0 = y ∧ Fin.ofNat 64 x0 = x) := by
      rintro ⟨rfl, rfl⟩; exact h ⟨rfl, rfl⟩
    simp only [Blit.plot, Framebuffer.flip_cell, this, decide_false, Bool.xor_false]
  hit := by
    simp only [Blit.plot, Bool.or_eq_true]
    refine or_congr_right ⟨fun h => ⟨_, _, ⟨rfl, rfl⟩, h⟩, ?_⟩
    rintro ⟨y, x, ⟨h1, h2⟩, h3⟩
    have hy : Fin.ofNat 32 y0 = y := Fin.ext h2
    have hx : Fin.ofNat 64 x0 = x := Fin.ext h1
    rw [hy, hx]; exact h3

/-- The columns of one sprite row invert exactly the cells under its 1 bits. -/
theorem Blit.drawColumns_draws (b : Byte) (x0 y0 n col : Nat) (a : Blit) (hn : col + n ≤ 8) :
    a.Draws (Blit.drawColumns b x0 y0 n col a) fun y x =>
      ∃ c, col ≤ c ∧ c < col + n ∧ b.getLsbD (7 - c) = true ∧ (x0 + c) % 64 = x.val ∧
        y0 % 32 = y.val := by
  induction n generalizing col a with
  | zero => exact (Blit.Draws.nothing a).congr fun y x => by simp; omega
  | succ n ih =>
    rw [Blit.drawColumns]
    have rest := ih (col + 1) (if b.getLsbD (7 - col) then a.plot (x0 + col) y0 else a) (by omega)
    by_cases hb : b.getLsbD (7 - col) = true
    · rw [if_pos hb] at rest ⊢
      refine ((Blit.plot_draws a (x0 + col) y0).both rest ?_).congr fun y x => ?_
      · rintro y x ⟨h1, h2⟩ ⟨c, h3, h4, h5, h6, h7⟩
        omega
      · constructor
        · rintro (⟨h1, h2⟩ | ⟨c, h3, h4, h5⟩)
          · exact ⟨col, le_refl _, by omega, hb, h1, h2⟩
          · exact ⟨c, by omega, by omega, h5⟩
        · rintro ⟨c, h1, h2, h3, h4⟩
          by_cases hc : c = col
          · subst hc; exact .inl h4
          · exact .inr ⟨c, by omega, by omega, h3, h4⟩
    · rw [if_neg hb] at rest ⊢
      refine rest.congr fun y x => ⟨?_, ?_⟩
      · rintro ⟨c, h1, h2, h3⟩
        exact ⟨c, by omega, by omega, h3⟩
      · rintro ⟨c, h1, h2, h3, h4⟩
        by_cases hc : c = col
        · subst hc; exact absurd h3 hb
        · exact ⟨c, by omega, by omega, h3, h4⟩

/-- The rows of a sprite invert exactly the cells under its 1 bits; no cell is visited twice, since
at most 32 rows are drawn (R147(a)). -/
theorem Blit.drawRows_draws (x0 y0 : Nat) (bs : List Byte) (row : Nat) (a : Blit)
    (hn : row + bs.length ≤ 32) :
    a.Draws (Blit.drawRows x0 y0 bs row a) fun y x =>
      ∃ k c, k < bs.length ∧ c < 8 ∧ (bs.getD k 0#8).getLsbD (7 - c) = true ∧
        (x0 + c) % 64 = x.val ∧ (y0 + (row + k)) % 32 = y.val := by
  induction bs generalizing row a with
  | nil => exact (Blit.Draws.nothing a).congr fun y x => by simp
  | cons b bs ih =>
    rw [List.length_cons] at hn
    refine ((Blit.drawColumns_draws b x0 (y0 + row) 8 0 a (by omega)).both
      (ih (row + 1) _ (by omega)) ?_).congr fun y x => ?_
    · rintro y x ⟨c, -, -, -, -, h1⟩ ⟨k, c', h2, -, -, -, h3⟩
      omega
    · constructor
      · rintro (⟨c, h1, h2, h3, h4, h5⟩ | ⟨k, c, h1, h2, h3, h4, h5⟩)
        · exact ⟨0, c, by simp, by omega, h3, h4, h5⟩
        · exact ⟨k + 1, c, by simpa using h1, h2, by simpa using h3, h4, by omega⟩
      · rintro ⟨k, c, h1, h2, h3, h4, h5⟩
        cases k with
        | zero => exact .inl ⟨c, by omega, by omega, h3, h4, h5⟩
        | succ k =>
          exact .inr ⟨k, c, by simpa using h1, h2, by simpa using h3, h4, by omega⟩

/-- What drawing the sprite of `n` rows that memory holds at `base` does (R146, R147(c)). -/
theorem drawSprite_draws (fb : Framebuffer) (m : Memory) (base n x0 y0 : Nat) (hn : n ≤ 32) :
    (Blit.mk fb false).Draws (drawSprite fb x0 y0 (m.readBytes base n)) fun y x =>
      ∃ row col, row < n ∧ col < 8 ∧ (m.read (base + row)).getLsbD (7 - col) = true ∧
        (x0 + col) % 64 = x.val ∧ (y0 + row) % 32 = y.val := by
  refine (Blit.drawRows_draws x0 y0 (m.readBytes base n) 0 ⟨fb, false⟩ (by simpa)).congr
    fun y x => ?_
  simp only [Memory.readBytes_length, Nat.zero_add]
  constructor
  · rintro ⟨k, c, h1, h2, h3, h4⟩
    exact ⟨k, c, h1, h2, by rwa [Memory.getD_readBytes _ _ _ _ h1] at h3, h4⟩
  · rintro ⟨k, c, h1, h2, h3, h4⟩
    exact ⟨k, c, h1, h2, by rwa [Memory.getD_readBytes _ _ _ _ h1], h4⟩

end Sys2Proof.Machine
end

