-- ==== Sys2Proof/Laws/PerInstr.lean ====
section
/-! SUPPORT. The fixed bits of each instruction's word: the encoder's word matches the instruction's
row of 30_encoding.md Table 30-3 (`w & mask = match`), one lemma per constructor. -/

namespace Sys2Proof.Laws.FixedBits

/-- The instruction's word has the fixed bits of its own row in Table 30-3. -/
def Statement (i : Sys2Proof.Instr) : Prop := (opcodeRow i).admits (encode i) = true

theorem packNNN_admits (f : Nibble) (nnn : Addr12) :
    OpcodeRow.admits ⟨0xF000#16, f.setWidth 16 <<< 12⟩ (packNNN f nnn) = true := by
  simp only [OpcodeRow.admits, beq_iff_eq]
  ext i hi
  interval_cases i <;> simp [packNNN]

theorem packXNN_admits (f : Nibble) (x : Reg) (nn : Byte) :
    OpcodeRow.admits ⟨0xF000#16, f.setWidth 16 <<< 12⟩ (packXNN f x nn) = true := by
  simp only [OpcodeRow.admits, beq_iff_eq]
  ext i hi
  interval_cases i <;> simp [packXNN]

theorem packX_admits (f : Nibble) (x : Reg) (nn : Byte) :
    OpcodeRow.admits ⟨0xF0FF#16, f.setWidth 16 <<< 12 ||| nn.setWidth 16⟩ (packXNN f x nn) = true := by
  simp only [OpcodeRow.admits, beq_iff_eq]
  ext i hi
  interval_cases i <;> simp [packXNN]

theorem packXYN_admits (f : Nibble) (x y : Reg) (n : Nibble) :
    OpcodeRow.admits ⟨0xF000#16, f.setWidth 16 <<< 12⟩ (packXYN f x y n) = true := by
  simp only [OpcodeRow.admits, beq_iff_eq]
  ext i hi
  interval_cases i <;> simp [packXYN]

theorem packXY_admits (f : Nibble) (x y : Reg) (n : Nibble) :
    OpcodeRow.admits ⟨0xF00F#16, f.setWidth 16 <<< 12 ||| n.setWidth 16⟩ (packXYN f x y n) = true := by
  simp only [OpcodeRow.admits, beq_iff_eq]
  ext i hi
  interval_cases i <;> simp [packXYN]

theorem cls : Statement (.cls) := by unfold Statement; decide
theorem ret : Statement (.ret) := by unfold Statement; decide
theorem jp (nnn : Addr12) : Statement (.jp nnn) := packNNN_admits 0x1#4 nnn
theorem call (nnn : Addr12) : Statement (.call nnn) := packNNN_admits 0x2#4 nnn
theorem seByte (x : Reg) (nn : Byte) : Statement (.seByte x nn) := packXNN_admits 0x3#4 x nn
theorem sneByte (x : Reg) (nn : Byte) : Statement (.sneByte x nn) := packXNN_admits 0x4#4 x nn
theorem seReg (x y : Reg) : Statement (.seReg x y) := packXY_admits 0x5#4 x y 0x0#4
theorem ldByte (x : Reg) (nn : Byte) : Statement (.ldByte x nn) := packXNN_admits 0x6#4 x nn
theorem addByte (x : Reg) (nn : Byte) : Statement (.addByte x nn) := packXNN_admits 0x7#4 x nn
theorem ldReg (x y : Reg) : Statement (.ldReg x y) := packXY_admits 0x8#4 x y 0x0#4
theorem orReg (x y : Reg) : Statement (.orReg x y) := packXY_admits 0x8#4 x y 0x1#4
theorem andReg (x y : Reg) : Statement (.andReg x y) := packXY_admits 0x8#4 x y 0x2#4
theorem xorReg (x y : Reg) : Statement (.xorReg x y) := packXY_admits 0x8#4 x y 0x3#4
theorem addReg (x y : Reg) : Statement (.addReg x y) := packXY_admits 0x8#4 x y 0x4#4
theorem sub (x y : Reg) : Statement (.sub x y) := packXY_admits 0x8#4 x y 0x5#4
theorem shr (x y : Reg) : Statement (.shr x y) := packXY_admits 0x8#4 x y 0x6#4
theorem subn (x y : Reg) : Statement (.subn x y) := packXY_admits 0x8#4 x y 0x7#4
theorem shl (x y : Reg) : Statement (.shl x y) := packXY_admits 0x8#4 x y 0xE#4
theorem sneReg (x y : Reg) : Statement (.sneReg x y) := packXY_admits 0x9#4 x y 0x0#4
theorem ldI (nnn : Addr12) : Statement (.ldI nnn) := packNNN_admits 0xA#4 nnn
theorem jpV0 (nnn : Addr12) : Statement (.jpV0 nnn) := packNNN_admits 0xB#4 nnn
theorem rnd (x : Reg) (nn : Byte) : Statement (.rnd x nn) := packXNN_admits 0xC#4 x nn
theorem drw (x y : Reg) (n : Nibble) : Statement (.drw x y n) := packXYN_admits 0xD#4 x y n
theorem skp (x : Reg) : Statement (.skp x) := packX_admits 0xE#4 x 0x9E#8
theorem sknp (x : Reg) : Statement (.sknp x) := packX_admits 0xE#4 x 0xA1#8
theorem ldVxDt (x : Reg) : Statement (.ldVxDt x) := packX_admits 0xF#4 x 0x07#8
theorem ldVxK (x : Reg) : Statement (.ldVxK x) := packX_admits 0xF#4 x 0x0A#8
theorem ldDtVx (x : Reg) : Statement (.ldDtVx x) := packX_admits 0xF#4 x 0x15#8
theorem ldStVx (x : Reg) : Statement (.ldStVx x) := packX_admits 0xF#4 x 0x18#8
theorem addIVx (x : Reg) : Statement (.addIVx x) := packX_admits 0xF#4 x 0x1E#8
theorem ldFVx (x : Reg) : Statement (.ldFVx x) := packX_admits 0xF#4 x 0x29#8
theorem ldBVx (x : Reg) : Statement (.ldBVx x) := packX_admits 0xF#4 x 0x33#8
theorem ldMemVx (x : Reg) : Statement (.ldMemVx x) := packX_admits 0xF#4 x 0x55#8
theorem ldVxMem (x : Reg) : Statement (.ldVxMem x) := packX_admits 0xF#4 x 0x65#8

end Sys2Proof.Laws.FixedBits
end

