-- ==== Sys2Proof/Tests/Slice0.lean ====
section
/-! SUPPORT. Tests. Expected results are those of spec/95_test_vectors.md (each test names its vector) or
of the rules' own examples. A vector starts from reset with the word at 0x200, as that file says. The
witnesses at the end meet the hypotheses of the obligations. -/

namespace Sys2Proof.Tests

open Sys2Proof.Machine

/-! ### Helpers -/

/-- The result is a next state with this property. -/
def nextIs (r : Result) (p : State → Bool) : Bool :=
  match r with
  | .next t => p t
  | .fault _ => false
  | .refused _ => false

/-- The result is this fault. -/
def faultIs (r : Result) (f : Fault) : Bool :=
  match r with
  | .next _ => false
  | .fault g => g == f
  | .refused _ => false

/-- The state with the word at PC. -/
def State.withWord (s : State) (w : Nat) : State := s.withFetchWord 16 w

/-- Reset with V1 and V2 set. -/
def withV1V2 (a b : Byte) : State := (State.reset.setV 1 a).setV 2 b

/-- Reset with VF set as well. -/
def withV1V2VF (a b f : Byte) : State := (withV1V2 a b).setV 15 f

/-- Reset with these keys pressed. -/
def withKeys (ks : List (Fin 16)) : State :=
  State.reset.setKeys (ks.foldl (fun k i => k.set i.val true) (Vector.replicate 16 false))

/-- Reset with I and some bytes at I. -/
def withBytesAt (a : Nat) (bs : List Byte) : State := (State.reset.setI (BitVec.ofNat 16 a)).store a bs

/-- Reset with `n` return addresses 0x0206 on the stack. -/
def withStack (n : Fin 17) : State :=
  { State.reset with sp := n, stack := Vector.replicate 16 0x0206#16 }

/-! ### Legality of words: each check refuses an ill-formed term -/

theorem test_family0_refuses_sys : (Fields.ofWord 0x0123#16).legalFamily0 = false := by decide
theorem test_family5_refuses_n1 : (Fields.ofWord 0x5121#16).legalFamily5or9 = false := by decide
theorem test_family9_refuses_nE : (Fields.ofWord 0x912E#16).legalFamily5or9 = false := by decide
theorem test_family8_refuses_8_and_F :
    (Fields.ofWord 0x8128#16).legalFamily8 = false ∧
    (Fields.ofWord 0x812F#16).legalFamily8 = false := by decide
theorem test_familyE_refuses_near_misses :
    (Fields.ofWord 0xE09D#16).legalFamilyE = false ∧
    (Fields.ofWord 0xE0A2#16).legalFamilyE = false := by decide
theorem test_familyF_refuses_near_misses :
    (Fields.ofWord 0xF006#16).legalFamilyF = false ∧
    (Fields.ofWord 0xF085#16).legalFamilyF = false := by decide
theorem test_legal_refuses_and_admits :
    (Fields.ofWord 0x0000#16).legal = false ∧ (Fields.ofWord 0x00EE#16).legal = true ∧
    (Fields.ofWord 0xD123#16).legal = true := by decide

/-! ### Decoding: V-ENC-1 to V-ENC-34, every constructor, from the two bytes in memory -/

theorem test_decode_control :
    decode [0x00#8, 0xEE#8] = .instr .ret [] ∧
    decode [0x1A#8, 0xBC#8] = .instr (.jp 0xABC#12) [] ∧
    decode [0x23#8, 0x00#8] = .instr (.call 0x300#12) [] ∧
    decode [0xB1#8, 0x05#8] = .instr (.jpV0 0x105#12) [] := by decide
theorem test_decode_skips :
    decode [0x3A#8, 0x42#8] = .instr (.seByte 10 0x42#8) [] ∧
    decode [0x4A#8, 0x42#8] = .instr (.sneByte 10 0x42#8) [] ∧
    decode [0x51#8, 0x20#8] = .instr (.seReg 1 2) [] ∧
    decode [0x91#8, 0x20#8] = .instr (.sneReg 1 2) [] ∧
    decode [0xE2#8, 0x9E#8] = .instr (.skp 2) [] ∧
    decode [0xE2#8, 0xA1#8] = .instr (.sknp 2) [] := by decide
theorem test_decode_immediate :
    decode [0x60#8, 0x05#8] = .instr (.ldByte 0 0x05#8) [] ∧
    decode [0x70#8, 0x03#8] = .instr (.addByte 0 0x03#8) [] ∧
    decode [0xC3#8, 0x0F#8] = .instr (.rnd 3 0x0F#8) [] := by decide
theorem test_decode_family8_low :
    decode [0x81#8, 0x20#8] = .instr (.ldReg 1 2) [] ∧
    decode [0x81#8, 0x21#8] = .instr (.orReg 1 2) [] ∧
    decode [0x81#8, 0x22#8] = .instr (.andReg 1 2) [] ∧
    decode [0x81#8, 0x23#8] = .instr (.xorReg 1 2) [] := by decide
theorem test_decode_family8_high :
    decode [0x81#8, 0x24#8] = .instr (.addReg 1 2) [] ∧
    decode [0x81#8, 0x25#8] = .instr (.sub 1 2) [] ∧
    decode [0x81#8, 0x26#8] = .instr (.shr 1 2) [] ∧
    decode [0x81#8, 0x27#8] = .instr (.subn 1 2) [] ∧
    decode [0x81#8, 0x2E#8] = .instr (.shl 1 2) [] := by decide
theorem test_decode_index_and_display :
    decode [0x00#8, 0xE0#8] = .instr .cls [] ∧
    decode [0xA1#8, 0x23#8] = .instr (.ldI 0x123#12) [] ∧
    decode [0xD1#8, 0x23#8] = .instr (.drw 1 2 3#4) [] := by decide
theorem test_decode_familyF_low :
    decode [0xF2#8, 0x07#8] = .instr (.ldVxDt 2) [] ∧
    decode [0xF1#8, 0x0A#8] = .instr (.ldVxK 1) [] ∧
    decode [0xF0#8, 0x15#8] = .instr (.ldDtVx 0) [] ∧
    decode [0xF3#8, 0x18#8] = .instr (.ldStVx 3) [] ∧
    decode [0xF1#8, 0x1E#8] = .instr (.addIVx 1) [] := by decide
theorem test_decode_familyF_high :
    decode [0xF0#8, 0x29#8] = .instr (.ldFVx 0) [] ∧
    decode [0xF0#8, 0x33#8] = .instr (.ldBVx 0) [] ∧
    decode [0xF2#8, 0x55#8] = .instr (.ldMemVx 2) [] ∧
    decode [0xF2#8, 0x65#8] = .instr (.ldVxMem 2) [] := by decide
/-- V-ENC-40 to V-ENC-48. -/
theorem test_decode_refuses_illegal :
    decode [0x00#8, 0x00#8] = .unknownOpcode 0x0000#16 ∧
    decode [0x00#8, 0xE1#8] = .unknownOpcode 0x00E1#16 ∧
    decode [0x51#8, 0x21#8] = .unknownOpcode 0x5121#16 ∧
    decode [0x81#8, 0x2D#8] = .unknownOpcode 0x812D#16 ∧
    decode [0x91#8, 0x2E#8] = .unknownOpcode 0x912E#16 ∧
    decode [0xE1#8, 0x9F#8] = .unknownOpcode 0xE19F#16 ∧
    decode [0xF0#8, 0x1F#8] = .unknownOpcode 0xF01F#16 ∧
    decode [0x60#8] = .truncated := by decide
theorem test_encode_bytes : encodeBytes (.drw 1 2 3#4) = [0xD1#8, 0x23#8] := by decide
theorem test_decode_table_word : decodeTableWord 16 0xF265 = some (.ldVxMem 2) := by decide

/-! ### The cycle -/

/-- V-CYC-1: big-endian fetch. -/
theorem test_fetch_big_endian :
    nextIs (step (State.reset.store 0x200 [0x12#8, 0x34#8])) (fun t => t.pc == 0x234#16) = true := by
  decide
/-- V-CYC-2: an odd PC. -/
theorem test_odd_pc :
    nextIs (step (State.withWord { State.reset with pc := 0x301#16 } 0x6A11))
      (fun t => t.getV 10 == 0x11#8 && t.pc == 0x303#16) = true := by decide
/-- V-CYC-3. -/
theorem test_fetch_fault :
    faultIs (step { State.reset with pc := 0xFFF#16, dt := 9#8 }) (.addressFault 0xFFF) = true := by
  decide
/-- V-CYC-4, first cycle. -/
theorem test_unloaded_memory :
    nextIs (step State.reset) (fun t => t.pc == 0x202#16 &&
      t.outcome == .fault (.unknownOpcode 0x0000#16 0x200#16)) = true := by decide
/-- V-CYC-5. -/
theorem test_no_wrap_of_pc :
    nextIs (step (State.withWord { State.reset with pc := 0xFFE#16 } 0xFFFF))
      (fun t => t.pc == 0x1000#16) = true := by decide
/-- V-CYC-6. -/
theorem test_tick_stops_at_zero :
    nextIs (step (State.withWord { State.reset with dt := 3#8, st := 1#8 } 0x6000))
      (fun t => t.dt == 2#8 && t.st == 0#8) = true := by decide
/-- V-CYC-8. -/
theorem test_tick_on_continuing_fault :
    nextIs (step (State.withWord { State.reset with dt := 4#8 } 0xF2FF))
      (fun t => t.dt == 3#8 && t.outcome == .fault (.unknownOpcode 0xF2FF#16 0x200#16)) = true := by
  decide

/-! ### Control flow -/

/-- V-CF-1. -/
theorem test_jp : nextIs (step (State.withWord State.reset 0x1ABC)) (fun t => t.pc == 0xABC#16) = true := by
  decide
/-- V-CF-4. -/
theorem test_call_pushes_next :
    nextIs (step (State.withWord { State.reset with pc := 0xFFE#16 } 0x2300))
      (fun t => t.pc == 0x300#16 && t.sp == 1 && t.stack.get 0 == 0x1000#16) = true := by decide
/-- V-CF-5. -/
theorem test_call_overflow :
    nextIs (step (State.withWord { withStack 16 with pc := 0x204#16 } 0x2300))
      (fun t => t.pc == 0x206#16 && t.sp == 16 && t.stack == (withStack 16).stack &&
        t.outcome == .fault (.stackOverflow 0x204#16)) = true := by decide
/-- V-CF-6. -/
theorem test_ret :
    nextIs (step (State.withWord { withStack 2 with
        stack := (withStack 2).stack.set 1 0x0456#16, pc := 0x300#16 } 0x00EE))
      (fun t => t.pc == 0x456#16 && t.sp == 1 && t.stack.get 0 == 0x0206#16) = true := by decide
/-- V-CF-7. -/
theorem test_ret_underflow :
    nextIs (step (State.withWord { State.reset with pc := 0x300#16 } 0x00EE))
      (fun t => t.pc == 0x302#16 && t.sp == 0 &&
        t.outcome == .fault (.stackUnderflow 0x300#16)) = true := by decide
/-- V-CF-8, V-CF-9. -/
theorem test_se_byte :
    nextIs (step (State.withWord (State.reset.setV 10 0x42#8) 0x3A42)) (fun t => t.pc == 0x204#16) = true ∧
    nextIs (step (State.withWord (State.reset.setV 10 0x43#8) 0x3A42)) (fun t => t.pc == 0x202#16) = true := by
  decide
/-- V-CF-10, V-CF-11. -/
theorem test_sne_byte :
    nextIs (step (State.withWord (State.reset.setV 10 0x43#8) 0x4A42)) (fun t => t.pc == 0x204#16) = true ∧
    nextIs (step (State.withWord (State.reset.setV 10 0x42#8) 0x4A42)) (fun t => t.pc == 0x202#16) = true := by
  decide
/-- V-CF-12, V-CF-13. -/
theorem test_se_reg :
    nextIs (step (State.withWord (withV1V2 7 7) 0x5120)) (fun t => t.pc == 0x204#16) = true ∧
    nextIs (step (State.withWord (withV1V2 7 8) 0x5120)) (fun t => t.pc == 0x202#16) = true := by decide
/-- V-CF-15, V-CF-16. -/
theorem test_sne_reg :
    nextIs (step (State.withWord (withV1V2 7 8) 0x9120)) (fun t => t.pc == 0x204#16) = true ∧
    nextIs (step (State.withWord (withV1V2 7 7) 0x9120)) (fun t => t.pc == 0x202#16) = true := by decide
/-- V-CF-17, the document's scenario. -/
theorem test_jp_v0 :
    nextIs (step (State.withWord ((State.reset.setV 0 5#8).setV 1 1#8) 0xB105))
      (fun t => t.pc == 0x10A#16) = true := by decide
/-- V-CF-18. -/
theorem test_jp_v0_not_reduced :
    nextIs (step (State.withWord (State.reset.setV 0 0xFF#8) 0xBFFF)) (fun t => t.pc == 0x10FE#16) = true := by
  decide

/-! ### Register load and arithmetic -/

/-- V-ALU-2. -/
theorem test_ld_byte :
    nextIs (step (State.withWord State.reset 0x6FFF))
      (fun t => t.getV 15 == 0xFF#8 && t.pc == 0x202#16) = true := by decide
/-- V-ALU-4, V-ALU-5. -/
theorem test_add_byte :
    nextIs (step (State.withWord ((State.reset.setV 10 0xFF#8).setV 15 7#8) 0x7A01))
      (fun t => t.getV 10 == 0#8 && t.getV 15 == 7#8) = true ∧
    nextIs (step (State.withWord (State.reset.setV 15 0xF8#8) 0x7F10))
      (fun t => t.getV 15 == 8#8) = true := by decide
/-- V-ALU-6. -/
theorem test_ld_reg :
    nextIs (step (State.withWord (withV1V2VF 1 0x99 5) 0x8120))
      (fun t => t.getV 1 == 0x99#8 && t.getV 2 == 0x99#8 && t.getV 15 == 5#8) = true := by decide
/-- V-ALU-7. -/
theorem test_or :
    nextIs (step (State.withWord (withV1V2VF 0xF0 0x0F 5) 0x8121))
      (fun t => t.getV 1 == 0xFF#8 && t.getV 15 == 5#8) = true := by decide
/-- V-ALU-8. -/
theorem test_and :
    nextIs (step (State.withWord (withV1V2VF 0xFC 0x3F 5) 0x8122))
      (fun t => t.getV 1 == 0x3C#8 && t.getV 15 == 5#8) = true := by decide
/-- V-ALU-9. -/
theorem test_xor :
    nextIs (step (State.withWord (withV1V2VF 0xFF 0x0F 5) 0x8123))
      (fun t => t.getV 1 == 0xF0#8 && t.getV 15 == 5#8) = true := by decide
/-- V-ALU-12, V-ALU-13. -/
theorem test_add_reg :
    nextIs (step (State.withWord (withV1V2 0xFF 1) 0x8124))
      (fun t => t.getV 1 == 0#8 && t.getV 15 == 1#8) = true ∧
    nextIs (step (State.withWord (withV1V2VF 0xFF 0 1) 0x8124))
      (fun t => t.getV 1 == 0xFF#8 && t.getV 15 == 0#8) = true := by decide
/-- V-ALU-16, V-ALU-17: VF as destination and as operand. -/
theorem test_add_reg_vf :
    nextIs (step (State.withWord (withV1V2VF 2 0 3) 0x8F14)) (fun t => t.getV 15 == 0#8) = true ∧
    nextIs (step (State.withWord (withV1V2VF 0xFF 0 1) 0x81F4))
      (fun t => t.getV 1 == 0#8 && t.getV 15 == 1#8) = true := by decide
/-- V-ALU-19, V-ALU-20. -/
theorem test_sub :
    nextIs (step (State.withWord (withV1V2 0x33 0x33) 0x8125))
      (fun t => t.getV 1 == 0#8 && t.getV 15 == 1#8) = true ∧
    nextIs (step (State.withWord (withV1V2VF 0 1 1) 0x8125))
      (fun t => t.getV 1 == 0xFF#8 && t.getV 15 == 0#8) = true := by decide
/-- V-ALU-21, V-ALU-22. -/
theorem test_sub_vf :
    nextIs (step (State.withWord (withV1V2VF 7 0 5) 0x8F15)) (fun t => t.getV 15 == 0#8) = true ∧
    nextIs (step (State.withWord (withV1V2VF 5 0 7) 0x81F5))
      (fun t => t.getV 1 == 0xFE#8 && t.getV 15 == 0#8) = true := by decide
/-- V-ALU-23, V-ALU-25. -/
theorem test_shr :
    nextIs (step (State.withWord (withV1V2 5 0xFF) 0x8126))
      (fun t => t.getV 1 == 2#8 && t.getV 15 == 1#8 && t.getV 2 == 0xFF#8) = true ∧
    nextIs (step (State.withWord (State.reset.setV 15 3#8) 0x8F06)) (fun t => t.getV 15 == 1#8) = true := by
  decide
/-- V-ALU-26, V-ALU-28. -/
theorem test_subn :
    nextIs (step (State.withWord (withV1V2 1 0x10) 0x8127))
      (fun t => t.getV 1 == 0x0F#8 && t.getV 15 == 1#8) = true ∧
    nextIs (step (State.withWord (withV1V2VF 2 1 1) 0x8127))
      (fun t => t.getV 1 == 0xFF#8 && t.getV 15 == 0#8) = true := by decide
/-- V-ALU-29, V-ALU-30. -/
theorem test_shl :
    nextIs (step (State.withWord (withV1V2 0x81 0xFF) 0x812E))
      (fun t => t.getV 1 == 2#8 && t.getV 15 == 1#8 && t.getV 2 == 0xFF#8) = true ∧
    nextIs (step (State.withWord (withV1V2VF 0x41 0 1) 0x812E))
      (fun t => t.getV 1 == 0x82#8 && t.getV 15 == 0#8) = true := by decide

/-! ### Index register, random number -/

/-- V-IDX-1. -/
theorem test_ld_i : nextIs (step (State.withWord State.reset 0xA123)) (fun t => t.i == 0x123#16) = true := by
  decide
/-- V-IDX-2, V-IDX-3. -/
theorem test_add_i :
    nextIs (step (State.withWord (((State.reset.setI 0x0FFF#16).setV 1 1#8).setV 15 5#8) 0xF11E))
      (fun t => t.i == 0x1000#16 && t.getV 15 == 5#8) = true ∧
    nextIs (step (State.withWord ((State.reset.setI 0xFFFF#16).setV 1 2#8) 0xF11E))
      (fun t => t.i == 1#16) = true := by decide
/-- V-IDX-4, V-IDX-5, for every font base. -/
theorem test_glyph_address :
    glyphAddr 0x03#8 = BitVec.ofNat 16 (Config.fontBase.val + 15) ∧
    glyphAddr 0x1A#8 = BitVec.ofNat 16 (Config.fontBase.val + 50) := ⟨rfl, rfl⟩
/-- V-RND-2, and V-RND-5: the result is the draw under the mask, whatever the draw. -/
theorem test_rnd (s : State) :
    exec (.rnd 3 0x0F#8) s = .next (s.consumeDraw.setV 3 (Config.rnd s.draws &&& 0x0F#8)).advance ∧
    ∀ b : Byte, b &&& 0x00#8 = 0x00#8 := ⟨rfl, by simp⟩

/-! ### Display -/

/-- Cells of a framebuffer that are 1, as (column, row), row by row. -/
def cellsOf (fb : Framebuffer) : List (Nat × Nat) :=
  (List.finRange 32).flatMap fun y =>
    ((List.finRange 64).filter fun x => fb.cell y x).map fun x => (x.val, y.val)

/-- V-DRW-9. -/
theorem test_cls :
    nextIs (step (State.withWord ((State.reset.setFb (State.reset.fb.flip 31 63)).setV 15 1#8) 0x00E0))
      (fun t => t.fb == Framebuffer.clear && t.getV 15 == 1#8) = true := by decide
/-- V-DRW-5: both coordinates reduced. -/
theorem test_drw_reduces_coordinates :
    nextIs (step (State.withWord (((withBytesAt 0x300 [0xC0#8]).setV 1 0x47#8).setV 2 0x25#8) 0xD121))
      (fun t => t.fb.cell 5 7 && t.fb.cell 5 8 && !t.fb.cell 5 9 && !t.fb.cell 5 6 &&
        t.getV 15 == 0#8) = true := by decide
/-- V-DRW-7: collision. -/
theorem test_drw_collision :
    nextIs (step (State.withWord
        ((withBytesAt 0x300 [0xF0#8]).setFb ((State.reset.fb.flip 0 3).flip 0 4)) 0xD121))
      (fun t => t.fb.cell 0 0 && t.fb.cell 0 2 && !t.fb.cell 0 3 && t.fb.cell 0 4 &&
        t.getV 15 == 1#8) = true := by decide

/-! ### Keys -/

/-- V-KEY-1, V-KEY-2, V-KEY-5. -/
theorem test_skp :
    nextIs (step (State.withWord ((withKeys [7]).setV 2 0x07#8) 0xE29E)) (fun t => t.pc == 0x204#16) = true ∧
    nextIs (step (State.withWord (State.reset.setV 2 0x07#8) 0xE29E)) (fun t => t.pc == 0x202#16) = true ∧
    nextIs (step (State.withWord ((withKeys [7]).setV 2 0x37#8) 0xE29E)) (fun t => t.pc == 0x204#16) = true := by
  decide
/-- V-KEY-3, V-KEY-4. -/
theorem test_sknp :
    nextIs (step (State.withWord (State.reset.setV 2 0x07#8) 0xE2A1)) (fun t => t.pc == 0x204#16) = true ∧
    nextIs (step (State.withWord ((withKeys [7]).setV 2 0x07#8) 0xE2A1)) (fun t => t.pc == 0x202#16) = true := by
  decide

/-! ### Timers, key wait, memory transfers -/

/-- V-TM-1. -/
theorem test_ld_vx_dt :
    nextIs (step (State.withWord (State.reset.setDt 6#8) 0xF207))
      (fun t => t.getV 2 == 6#8 && t.dt == 5#8) = true := by decide
/-- V-TM-3, V-TM-4. -/
theorem test_ld_dt_vx :
    nextIs (step (State.withWord (State.reset.setV 0 0x0A#8) 0xF015)) (fun t => t.dt == 9#8) = true ∧
    nextIs (step (State.withWord ((State.reset.setV 0 1#8).setDt 50#8) 0xF015)) (fun t => t.dt == 0#8) = true := by
  decide
/-- V-TM-7. -/
theorem test_ld_st_vx :
    nextIs (step (State.withWord ((State.reset.setV 3 0xFF#8).setDt 1#8) 0xF318))
      (fun t => t.st == 254#8 && t.dt == 0#8) = true := by decide
/-- V-TM-8. -/
theorem test_key_wait_blocks :
    nextIs (step (State.withWord { State.reset with dt := 3#8, st := 1#8 } 0xF10A))
      (fun t => t.pc == 0x200#16 && t.outcome == .blocked && t.dt == 2#8 && t.st == 0#8) = true := by
  decide
/-- V-TM-9, V-TM-10. -/
theorem test_key_wait_captures :
    nextIs (step (State.withWord (withKeys [7, 3]) 0xF10A))
      (fun t => t.getV 1 == 3#8 && t.pc == 0x202#16) = true ∧
    nextIs (step (State.withWord (withKeys [15]) 0xF10A)) (fun t => t.getV 1 == 15#8) = true := by decide
/-- V-TM-12, V-TM-14. -/
theorem test_bcd :
    nextIs (step (State.withWord ((State.reset.setI 0x300#16).setV 0 254#8) 0xF033))
      (fun t => t.mem.readBytes 0x300 3 == [2#8, 5#8, 4#8] && t.i == 0x300#16) = true ∧
    nextIs (step (State.withWord ((State.reset.setI 0xFFD#16).setV 0 255#8) 0xF033))
      (fun t => t.mem.readBytes 0xFFD 3 == [2#8, 5#8, 5#8]) = true := by decide
/-- V-TM-15. -/
theorem test_bcd_faults :
    faultIs (step (State.withWord ((State.reset.setI 0xFFE#16).setV 0 255#8) 0xF033))
      (.addressFault 0x1000) = true := by decide
/-- V-TM-16. -/
theorem test_block_store :
    nextIs (step (State.withWord ((((State.reset.setI 0x400#16).setV 0 1#8).setV 1 2#8 |>.setV 2 3#8).setV 3 4#8) 0xF255))
      (fun t => t.mem.readBytes 0x400 4 == [1#8, 2#8, 3#8, 0#8] && t.i == 0x400#16) = true := by decide
/-- V-TM-18. -/
theorem test_block_store_faults :
    faultIs (step (State.withWord (State.reset.setI 0xFFF#16) 0xF155)) (.addressFault 0x1000) = true := by
  decide
/-- V-TM-19. -/
theorem test_block_load :
    nextIs (step (State.withWord ((withBytesAt 0x300 [2#8, 5#8, 4#8, 0xEE#8]).setV 3 0x77#8) 0xF265))
      (fun t => t.getV 0 == 2#8 && t.getV 1 == 5#8 && t.getV 2 == 4#8 && t.getV 3 == 0x77#8 &&
        t.i == 0x300#16) = true := by decide
/-- V-TM-20, V-TM-22. -/
theorem test_block_load_faults :
    faultIs (step (State.withWord (State.reset.setI 0xFF1#16) 0xFF65)) (.addressFault 0x1000) = true ∧
    faultIs (step (State.withWord (State.reset.setI 0x1234#16) 0xF065)) (.addressFault 0x1234) = true := by
  decide

/-! ### Font, load, log -/

/-- 10_state.md R21: the last glyph, and the length. -/
theorem test_font : fontBytes.length = 80 ∧
    fontBytes.drop 75 = [0xF0#8, 0x80#8, 0xF0#8, 0x80#8, 0x80#8] := by decide
/-- V-LOAD-4. -/
theorem test_load_odd_length :
    nextIs (State.reset.load [0x12#8, 0x00#8, 0xFF#8])
      (fun t => t.mem.readBytes 0x200 4 == [0x12#8, 0x00#8, 0xFF#8, 0x00#8] && t.pc == 0x200#16) = true := by
  decide
/-- P6: a continuing fault and a repeated AddressFault stand in the log in order. -/
theorem test_log_of_faults :
    ((State.withWord { State.reset with pc := 0xFFE#16 } 0x00EE).session
      [.step, .step, .step]).faultLog =
      [.stackUnderflow 0xFFE#16, .addressFault 0x1000, .addressFault 0x1000] := by decide
/-- Table 60-1. -/
theorem test_codes :
    CycleOutcome.code (.fault (.stackOverflow 0#16)) = 4 ∧ CycleOutcome.code .blocked = 6 := by decide

/-! ### Witnesses: the hypotheses of the obligations are met -/

theorem witness_StepRunsDecodedInstruction :
    (State.withWord State.reset 0x6005).pc.toNat ≤ 4094 ∧
    decode [(State.withWord State.reset 0x6005).mem.read 0x200,
      (State.withWord State.reset 0x6005).mem.read 0x201] = .instr (.ldByte 0 5#8) [] := by decide
theorem witness_FetchOutsideMemoryFaults :
    4094 < ({ State.reset with pc := 0xFFF#16 } : State).pc.toNat := by decide
theorem witness_IllegalWordIsReportedAndPassed :
    State.reset.pc.toNat ≤ 4094 ∧ decodeWord State.reset.fetchWord = none := by decide
theorem witness_RetPopsOrUnderflows :
    0 < (withStack 1).sp.val ∧ 0 < (withStack 16).sp.val ∧ State.reset.sp.val = 0 := by decide
theorem witness_CallPushesOrOverflows :
    State.reset.sp.val < 16 ∧ (withStack 15).sp.val < 16 ∧ (withStack 16).sp.val = 16 := by decide
theorem witness_SkipsOnRegisterCompare : (1#4 : Nibble) ≠ 0#4 := by decide
theorem witness_flag_instructions : (14 : Reg) ≠ 15 := by decide
theorem witness_DrawInvertsCoveredCells :
    (1 ≤ (1#4).toNat ∧ 4096 < (State.reset.setI 0x1000#16).i.toNat + (1#4).toNat) ∧
    ((0#4).toNat = 0) ∧ ((State.reset.setI 0xFF1#16).i.toNat + (15#4).toNat ≤ 4096) := by decide
/-- The state of the draw witnesses: a one-row sprite at 0x300, coordinates 0. -/
def drawState : State := withBytesAt 0x300 [0x80#8]
theorem witness_draw_covers :
    Covers drawState.mem drawState.i.toNat (1#4).toNat (drawState.getV 0).toNat (drawState.getV 1).toNat 0 0 :=
  ⟨0, 0, by decide, by decide, by decide, by decide, by decide⟩
theorem witness_draw_collides :
    Covers drawState.mem drawState.i.toNat (1#4).toNat (drawState.getV 0).toNat (drawState.getV 1).toNat 0 0 ∧
    (drawState.fb.flip 0 0).cell 0 0 = true := ⟨witness_draw_covers, by decide⟩
theorem witness_draw_does_not_cover :
    ¬ Covers drawState.mem drawState.i.toNat (1#4).toNat (drawState.getV 0).toNat (drawState.getV 1).toNat 31 63 := by
  rintro ⟨row, col, h1, h2, -, h3, -⟩
  have : (drawState.getV 0).toNat = 0 := by decide
  rw [this] at h3
  simp at h3
  omega
theorem witness_DrawTwiceRestores :
    ∃ t, exec (.drw 0 1 1#4) drawState = .next t ∧ t.getV 15 = 0#8 := ⟨_, rfl, by decide⟩
theorem witness_KeyWaitBlocksOrCaptures :
    (∀ k, State.reset.keys.get k = false) ∧ (withKeys [0]).keys.get 0 = true ∧
    ((withKeys [15]).keys.get 15 = true ∧ ∀ j < 15, (withKeys [15]).keys.get j = false) := by decide
theorem witness_BcdStoresThreeDigits :
    State.reset.mem.wf = true ∧ 4096 ≤ (State.reset.setI 0xFFE#16).i.toNat + 2 ∧
    (State.reset.setI 0xFFD#16).i.toNat + 2 < 4096 := by decide
theorem witness_block_transfers :
    State.reset.mem.wf = true ∧ 4096 ≤ (State.reset.setI 0xFF1#16).i.toNat + (15 : Reg).val ∧
    (State.reset.setI 0xFF0#16).i.toNat + (15 : Reg).val < 4096 ∧ (0 : Reg) ≤ 15 := by decide
theorem witness_EncodeOfDecode : decodeWord 0x812E#16 = some (.shl 1 2) := by decide
theorem witness_StepKeepsInvariant :
    State.reset.Inv ∧ ∃ t, step State.reset = .next t := ⟨by decide, _, rfl⟩
theorem witness_AbortsExactlyOutsideMemory :
    (1 ≤ accessBytes (.ldBVx 0) ∧ 4096 < (State.reset.setI 0xFFE#16).i.toNat + accessBytes (.ldBVx 0)) ∧
    accessBytes .cls = 0 ∧
    (State.reset.setI 0xFFD#16).i.toNat + accessBytes (.ldBVx 0) ≤ 4096 := by decide
theorem witness_InstructionsWriteOnlyTheirState :
    State.reset.mem.wf = true ∧ ∃ t, exec .cls State.reset = .next t := ⟨by decide, _, rfl⟩
theorem witness_TimersTickOncePerStep :
    (∃ t, step (State.withWord State.reset 0xF015) = .next t) ∧
    decodeWord (State.withWord State.reset 0xF015).fetchWord = some (.ldDtVx 0) ∧
    (∃ t, step (State.withWord State.reset 0xF018) = .next t) ∧
    decodeWord (State.withWord State.reset 0xF018).fetchWord = some (.ldStVx 0) :=
  ⟨⟨_, rfl⟩, by decide, ⟨_, rfl⟩, by decide⟩
theorem witness_timers_without_write :
    (∃ t, step (State.withWord State.reset 0x00E0) = .next t) ∧
    (∀ x, decodeWord (State.withWord State.reset 0x00E0).fetchWord ≠ some (.ldDtVx x)) ∧
    (∀ x, decodeWord (State.withWord State.reset 0x00E0).fetchWord ≠ some (.ldStVx x)) :=
  ⟨⟨_, rfl⟩, by decide, by decide⟩
theorem witness_StepsKeepKeysAndDrawOnlyForRnd :
    (∃ t, step (State.withWord State.reset 0xC30F) = .next t) ∧
    (∃ x nn, decodeWord (State.withWord State.reset 0xC30F).fetchWord = some (.rnd x nn)) ∧
    (∀ x nn, decodeWord (State.withWord State.reset 0x00E0).fetchWord ≠ some (.rnd x nn)) :=
  ⟨⟨_, rfl⟩, ⟨3, 0x0F#8, by decide⟩, fun x nn h => by
    have : decodeWord (State.withWord State.reset 0x00E0).fetchWord = some .cls := by decide
    rw [this] at h; exact nomatch h⟩
theorem witness_OutcomesOfInstructions :
    nextIs (exec .cls State.reset) (fun t => t.outcome == .ok) = true ∧
    nextIs (exec (.ldVxK 0) State.reset) (fun t => t.outcome == .blocked) = true ∧
    nextIs (exec .ret State.reset) (fun t => t.outcome == .fault (.stackUnderflow 0x200#16)) = true ∧
    nextIs (exec (.call 0#12) (withStack 16))
      (fun t => t.outcome == .fault (.stackOverflow 0x200#16)) = true := by decide
theorem witness_StepAppendsReportedFault :
    nextIs (step State.reset) (fun t => t.outcome == .fault (.unknownOpcode 0#16 0x200#16)) = true ∧
    nextIs (step (State.withWord State.reset 0x00E0)) (fun t => t.outcome == .ok) = true := by decide
theorem witness_AddressFaultRepeats :
    step { State.reset with pc := 0xFFF#16 } = .fault (.addressFault 0xFFF) := rfl
theorem witness_FinishedIsFixedPoint : (State.withWord State.reset 0x1200).FinishedAt 0x200#12 := by decide
theorem witness_CallThenReturnComesBack :
    State.reset.sp.val < 16 ∧ ∃ t, exec (.call 0x300#12) State.reset = .next t := ⟨by decide, _, rfl⟩
theorem witness_BlockStoreThenLoadRestores :
    ∃ t u : State, State.reset.mem.wf = true ∧
      exec (.ldMemVx 15) (State.reset.setI 0xFF0#16) = .next t ∧ u.mem = t.mem ∧ u.i = t.i :=
  ⟨_, _, by decide, rfl, rfl, rfl⟩
theorem witness_StoredWordIsFetchedNext :
    ∃ t, State.reset.mem.wf = true ∧ 1 ≤ (1 : Reg).val ∧
      (State.reset.setI 0x202#16).i = (State.reset.setI 0x202#16).pc + 2#16 ∧
      exec (.ldMemVx 1) (State.reset.setI 0x202#16) = .next t :=
  ⟨_, by decide, by decide, by decide, rfl⟩
theorem witness_GlyphAddressHoldsGlyph : 0 < 5 ∧ 4 < 5 := by decide
theorem witness_LoadCopiesImageOrFaults :
    State.reset.mem.wf = true ∧ 4096 < 0x200 + (List.replicate 3585 0#8).length ∧
    0x200 + (List.replicate 3584 0#8).length ≤ 4096 := by
  simp only [List.length_replicate]; decide
theorem witness_HostReadsAndKeyWrites :
    (∃ t, step State.reset = .next t) ∧ ∃ t, State.reset.load [0x60#8, 0x05#8] = .next t :=
  ⟨⟨_, rfl⟩, _, rfl⟩

end Sys2Proof.Tests
end

/-! ## Proofs of the family 10_state: frames, the invariant, the timers, the font -/

namespace Sys2Proof.Machine

/-! ### How the results of instructions are inverted -/

/-- An instruction's answer is its next state. -/
theorem next_inj {u t : State} (h : (.next u : Result) = .next t) : u = t := by
  injection h

/-- A ranged access that does not abort lies inside memory and goes on from `I` (R36). -/
theorem withRange_next {s t : State} {n : Nat} {go : Nat → Result} (h : withRange s n go = .next t) :
    (n = 0 ∨ s.i.toNat + n ≤ Config.memSize) ∧ go s.i.toNat = .next t := by
  rcases withRange_cases s n go with ⟨hn, e⟩ | ⟨-, e⟩ <;> rw [e] at h
  · exact ⟨hn, h⟩
  · exact nomatch h

/-- `RET` pops slot `sp - 1` into PC, or reports the underflow (R91). -/
theorem execRet_next {s t : State} (h : execRet s = .next t) :
    (∃ hsp : 0 < s.sp.val,
      t = State.complete { s with sp := ⟨s.sp.val - 1, by omega⟩ }
        (s.stack.get ⟨s.sp.val - 1, by omega⟩)) ∨
    t = s.continueFault (.stackUnderflow s.pc) := by
  rcases s.pop_cases with ⟨hsp, u, e, rfl⟩ | ⟨-, e⟩ <;> rw [execRet, e] at h
  · exact .inl ⟨hsp, (next_inj h).symm⟩
  · exact .inr (next_inj h).symm

/-- `CALL` writes the return address to slot `sp` and jumps, or reports the overflow (R93). -/
theorem execCall_next {nnn : Addr12} {s t : State} (h : execCall nnn s = .next t) :
    (∃ hsp : s.sp.val < 16,
      t = State.complete { s with
        stack := s.stack.set s.sp.val (s.pc + 2#16), sp := ⟨s.sp.val + 1, by omega⟩ }
        (addrOfNNN nnn)) ∨
    t = s.continueFault (.stackOverflow s.pc) := by
  rcases s.push_cases (s.pc + 2#16) with ⟨hsp, u, e, rfl⟩ | ⟨-, e⟩ <;> rw [execCall, e] at h
  · exact .inl ⟨hsp, (next_inj h).symm⟩
  · exact .inr (next_inj h).symm

/-- `LD Vx, K` is blocked or writes `Vx` and advances (R171). -/
theorem execLdVxK_next {x : Reg} {s t : State} (h : execLdVxK x s = .next t) :
    t = s.block ∨ ∃ b, t = (s.setV x b).advance := by
  rcases lowestKey_cases s.keys with ⟨e, -⟩ | ⟨k, e, -⟩ <;> rw [execLdVxK, e] at h
  · exact .inl (next_inj h).symm
  · exact .inr ⟨_, (next_inj h).symm⟩

/-- `DRW` writes the framebuffer and VF, and advances (R146). -/
theorem execDrw_next {x y : Reg} {n : Nibble} {s t : State} (h : execDrw x y n s = .next t) :
    ∃ fb b, t = ((s.setFb fb).setV 15 b).advance :=
  ⟨_, _, (next_inj (withRange_next h).2).symm⟩

/-- `LD B, Vx` stores the three digits, all inside memory, and advances (R174). -/
theorem execLdBVx_next {x : Reg} {s t : State} (h : execLdBVx x s = .next t) :
    s.i.toNat + 3 ≤ Config.memSize ∧
      t = (s.store s.i.toNat (bcdDigits (s.getV x))).advance := by
  obtain ⟨hn, h⟩ := withRange_next h
  exact ⟨by omega, (next_inj h).symm⟩

/-- `LD [I], Vx` stores V0 to Vx, all inside memory, and advances (R175). -/
theorem execLdMemVx_next {x : Reg} {s t : State} (h : execLdMemVx x s = .next t) :
    s.i.toNat + (x.val + 1) ≤ Config.memSize ∧
      t = (s.store s.i.toNat (s.regsUpTo x)).advance := by
  obtain ⟨hn, h⟩ := withRange_next h
  exact ⟨by omega, (next_inj h).symm⟩

/-- `LD Vx, [I]` writes V0 to Vx and advances (R176). -/
theorem execLdVxMem_next {x : Reg} {s t : State} (h : execLdVxMem x s = .next t) :
    ∃ f, t = (s.setVUpTo x f).advance :=
  ⟨_, (next_inj (withRange_next h).2).symm⟩

/-- A step that has a next state fetched inside memory, and ends with a tick after the fault of an
illegal word or after an instruction (R70 to R72). -/
theorem step_next {s t : State} (h : step s = .next t) :
    s.pc.toNat ≤ 4094 ∧ ∃ u, t = u.tick ∧
      ((decodeWord s.fetchWord = none ∧ u = s.continueFault (.unknownOpcode s.fetchWord s.pc)) ∨
        ∃ i, decodeWord s.fetchWord = some i ∧ exec i s = .next u) := by
  rcases step_cases s with ⟨-, e⟩ | ⟨hf, hd, e⟩ | ⟨i, hf, hd, e⟩ <;> rw [e] at h
  · exact nomatch h
  · exact ⟨hf, _, (next_inj h).symm, .inl ⟨hd, rfl⟩⟩
  · obtain ⟨u, hu, ht⟩ := tickAfter_next h
    exact ⟨hf, u, ht, .inr ⟨i, hd, hu⟩⟩

/-! ### Members of the lists of Table 10-2 -/

@[simp] theorem mem_allCells {p : Part} : p ∈ allCells ↔ ∃ y x, p = .cell y x := by
  simp [allCells, eq_comm]

@[simp] theorem mem_bytesFrom {p : Part} {base n : Nat} :
    p ∈ bytesFrom base n ↔ ∃ k < n, p = .byte (base + k) := by
  simp [bytesFrom, eq_comm]

@[simp] theorem mem_regsTo {p : Part} {x : Reg} : p ∈ regsTo x ↔ ∃ r ≤ x, p = .v r := by
  simp only [regsTo, List.mem_map, List.mem_range]
  constructor
  · rintro ⟨k, hk, rfl⟩
    have hk16 : k % 16 = k := Nat.mod_eq_of_lt (by omega)
    exact ⟨_, Fin.le_def.2 (by simp only [Fin.val_ofNat, hk16]; omega), rfl⟩
  · rintro ⟨r, hr, rfl⟩
    exact ⟨r.val, Nat.lt_succ_of_le hr, by simp⟩

/-- The delay timer is written by `LD DT, Vx` alone. -/
@[simp] theorem dt_mem_writeSet {s : State} {i : Instr} :
    .dt ∈ writeSet s i ↔ ∃ x, i = .ldDtVx x := by
  cases i <;> simp [writeSet]

/-- The sound timer is written by `LD ST, Vx` alone. -/
@[simp] theorem st_mem_writeSet {s : State} {i : Instr} :
    .st ∈ writeSet s i ↔ ∃ x, i = .ldStVx x := by
  cases i <;> simp [writeSet]

/-- No instruction writes a key flag (R19). -/
@[simp] theorem key_not_mem_writeSet {s : State} {i : Instr} {k : Fin 16} :
    .key k ∉ writeSet s i := by
  cases i <;> simp [writeSet]

/-- The stack pointer is written by `RET` and `CALL` alone. -/
@[simp] theorem sp_mem_writeSet {s : State} {i : Instr} :
    .sp ∈ writeSet s i ↔ i = .ret ∨ ∃ nnn, i = .call nnn := by
  cases i <;> simp [writeSet]

/-- A stack slot is written by `CALL` alone. -/
theorem call_of_stackSlot_mem_writeSet {s : State} {i : Instr} {k : Fin 16}
    (h : .stackSlot k ∈ writeSet s i) : ∃ nnn, i = .call nnn := by
  cases i <;> simp [writeSet] at h ⊢

/-! ### The frame of each state operation -/

theorem Frame.refl (s : State) : Frame s s [] := by
  intro p _
  cases p <;> rfl

theorem Frame.trans {s t u : State} {A B : List Part} (hst : Frame s t A) (htu : Frame t u B) :
    Frame s u (B ++ A) := by
  intro p hp
  rw [List.mem_append, not_or] at hp
  have h1 := hst p hp.2
  have h2 := htu p hp.1
  cases p <;> exact h2.trans h1

/-- Ending an instruction changes no part: PC and the outcome are none. -/
theorem Frame.complete {s u : State} {L : List Part} (h : Frame s u L) (a : Word) :
    Frame s (u.complete a) L := by
  intro p hp
  have := h p hp
  cases p <;> exact this

theorem Frame.advance {s u : State} {L : List Part} (h : Frame s u L) : Frame s u.advance L :=
  h.complete _

theorem frame_skipIf (s : State) (c : Bool) : Frame s (s.skipIf c) [] :=
  (Frame.refl s).complete _

theorem frame_continueFault (s : State) (f : Fault) (L : List Part) :
    Frame s (s.continueFault f) L := by
  intro p _
  cases p <;> rfl

theorem frame_block (s : State) (L : List Part) : Frame s s.block L := by
  intro p _
  cases p <;> rfl

theorem frame_setV (s : State) (x : Reg) (b : Byte) : Frame s (s.setV x b) [.v x] := by
  intro p hp
  cases p with
  | v r =>
    have hr : x ≠ r := by rintro rfl; simp at hp
    simp [Part.Kept, hr]
  | _ => rfl

theorem frame_setResultAndFlag (s : State) (x : Reg) (b : Byte) (c : Bool) :
    Frame s (s.setResultAndFlag x b c) [.v x, .v 15] := by
  intro p hp
  cases p with
  | v r =>
    have hr : ¬ x = r ∧ ¬ 15 = r := by constructor <;> rintro rfl <;> simp at hp
    simp [Part.Kept, hr]
  | _ => rfl

theorem frame_setVUpTo (s : State) (x : Reg) (f : Reg → Byte) :
    Frame s (s.setVUpTo x f) (regsTo x) := by
  intro p hp
  cases p with
  | v r =>
    have hr : ¬ r ≤ x := fun h => hp (mem_regsTo.2 ⟨r, h, rfl⟩)
    simp [Part.Kept, hr]
  | _ => simp [Part.Kept]

theorem frame_setI (s : State) (a : Word) : Frame s (s.setI a) [.i] := by
  intro p hp
  cases p with
  | i => simp at hp
  | _ => rfl

theorem frame_setDt (s : State) (b : Byte) : Frame s (s.setDt b) [.dt] := by
  intro p hp
  cases p with
  | dt => simp at hp
  | _ => rfl

theorem frame_setSt (s : State) (b : Byte) : Frame s (s.setSt b) [.st] := by
  intro p hp
  cases p with
  | st => simp at hp
  | _ => rfl

theorem frame_setFb (s : State) (fb : Framebuffer) : Frame s (s.setFb fb) allCells := by
  intro p hp
  cases p with
  | cell y x => exact absurd (mem_allCells.2 ⟨y, x, rfl⟩) hp
  | _ => rfl

theorem frame_setFb_setVf (s : State) (fb : Framebuffer) (b : Byte) :
    Frame s ((s.setFb fb).setV 15 b) (.v 15 :: allCells) :=
  (frame_setFb s fb).trans (frame_setV _ 15 b)

theorem frame_consumeDraw_setV (s : State) (x : Reg) (b : Byte) :
    Frame s (s.consumeDraw.setV x b) [.v x] :=
  frame_setV s x b

/-- A write leaves every other address alone, whether or not memory is canonical. -/
theorem Memory.read_write_of_ne (m : Memory) {a c : Nat} (b : Byte) (hc : c ≠ a) :
    (m.write a b).read c = m.read c := by
  induction m with
  | nil =>
    simp only [Memory.write]
    split <;> simp [Memory.read, hc.symm]
  | cons e m ih =>
    obtain ⟨k, v⟩ := e
    simp only [Memory.write]
    split
    · split <;> simp [Memory.read, hc.symm]
    · split
      · have hk : k ≠ c := by omega
        split <;> simp [Memory.read, hc.symm, hk]
      · simp [Memory.read, ih]

/-- Bytes written upward from `a` leave every address outside their range alone. -/
theorem Memory.read_writeBytes_outside (m : Memory) (a : Nat) (bs : List Byte) {c : Nat}
    (hc : ∀ k < bs.length, c ≠ a + k) : (m.writeBytes a bs).read c = m.read c := by
  induction bs generalizing m a with
  | nil => rfl
  | cons b bs ih =>
    have hne : c ≠ a := hc 0 (by simp)
    have hrest : ∀ k < bs.length, c ≠ a + 1 + k := fun k hk => by
      have := hc (k + 1) (by simpa using hk)
      omega
    rw [Memory.writeBytes, ih _ _ hrest, Memory.read_write_of_ne _ _ hne]

theorem frame_store (s : State) (a : Nat) (bs : List Byte) :
    Frame s (s.store a bs) (bytesFrom a bs.length) := by
  intro p hp
  cases p with
  | byte c =>
    exact Memory.read_writeBytes_outside s.mem a bs fun k hk hc =>
      hp (mem_bytesFrom.2 ⟨k, hk, by rw [hc]⟩)
  | _ => rfl

theorem frame_setSp (s : State) (n : Fin 17) : Frame s { s with sp := n } [.sp] := by
  intro p hp
  cases p with
  | sp => simp at hp
  | _ => rfl

theorem frame_push (s : State) (a : Word) (n : Fin 17) (hsp : s.sp.val < 16) :
    Frame s { s with stack := s.stack.set s.sp.val a, sp := n }
      [.stackSlot (Fin.ofNat 16 s.sp.val), .sp] := by
  intro p hp
  cases p with
  | sp => simp at hp
  | stackSlot k =>
    have hk : s.sp.val ≠ k.val := by
      intro e
      simp [e] at hp
    simp [Part.Kept, Vector.get_eq_getElem, Vector.getElem_set_ne, hk]
  | _ => rfl

/-! ### The frame of each instruction -/

/-- An instruction whose answer is known to be `u` has the frame of `u`. -/
theorem Frame.of_next {s u t : State} {L : List Part} (hf : Frame s u L)
    (h : (.next u : Result) = .next t) : Frame s t L :=
  next_inj h ▸ hf

/-- Every instruction writes at most PC and its entry of Table 10-2 (R25), from every state. -/
theorem exec_frame {i : Instr} {s t : State} (h : exec i s = .next t) : Frame s t (writeSet s i) := by
  cases i with
  | cls => exact (frame_setFb s _).advance.of_next h
  | ret =>
    obtain ⟨_, rfl⟩ | rfl := execRet_next h
    · exact (frame_setSp s _).complete _
    · exact frame_continueFault s _ _
  | call nnn =>
    obtain ⟨hsp, rfl⟩ | rfl := execCall_next h
    · exact (frame_push s _ _ hsp).complete _
    · exact frame_continueFault s _ _
  | jp | jpV0 => exact ((Frame.refl s).complete _).of_next h
  | seByte | sneByte | seReg | sneReg | skp | sknp => exact (frame_skipIf s _).of_next h
  | ldByte | addByte | ldReg | orReg | andReg | xorReg | ldVxDt =>
    exact (frame_setV s _ _).advance.of_next h
  | addReg | sub | shr | subn | shl => exact (frame_setResultAndFlag s _ _ _).advance.of_next h
  | ldI | addIVx | ldFVx => exact (frame_setI s _).advance.of_next h
  | rnd => exact (frame_consumeDraw_setV s _ _).advance.of_next h
  | drw =>
    obtain ⟨fb, b, rfl⟩ := execDrw_next h
    exact (frame_setFb_setVf s fb b).advance
  | ldVxK x =>
    obtain rfl | ⟨b, rfl⟩ := execLdVxK_next h
    · exact frame_block s _
    · exact (frame_setV s x b).advance
  | ldDtVx => exact (frame_setDt s _).advance.of_next h
  | ldStVx => exact (frame_setSt s _).advance.of_next h
  | ldBVx x =>
    obtain ⟨-, rfl⟩ := execLdBVx_next h
    exact (frame_store s _ (bcdDigits (s.getV x))).advance
  | ldMemVx x =>
    obtain ⟨-, rfl⟩ := execLdMemVx_next h
    have hf := frame_store s s.i.toNat (s.regsUpTo x)
    rw [s.regsUpTo_length x] at hf
    exact hf.advance
  | ldVxMem x =>
    obtain ⟨f, rfl⟩ := execLdVxMem_next h
    exact (frame_setVUpTo s x f).advance

/-- Settles O43, from the frame of each instruction: a store leaves the other bytes alone in every
memory, so the premise on memory is not used. -/
theorem instructionsWriteOnlyTheirState : Obligations.InstructionsWriteOnlyTheirState :=
  fun _ _ _ _ h => exec_frame h

/-! ### Timers, keys and draws in one step -/

theorem exec_dt_kept {i : Instr} {s t : State} (h : exec i s = .next t)
    (hi : ∀ x, i ≠ .ldDtVx x) : t.dt = s.dt :=
  exec_frame h .dt (by simpa using hi)

theorem exec_st_kept {i : Instr} {s t : State} (h : exec i s = .next t)
    (hi : ∀ x, i ≠ .ldStVx x) : t.st = s.st :=
  exec_frame h .st (by simpa using hi)

theorem exec_ldDtVx_dt {x : Reg} {s t : State} (h : exec (.ldDtVx x) s = .next t) :
    t.dt = s.getV x :=
  next_inj h ▸ rfl

theorem exec_ldStVx_st {x : Reg} {s t : State} (h : exec (.ldStVx x) s = .next t) :
    t.st = s.getV x :=
  next_inj h ▸ rfl

theorem exec_keys {i : Instr} {s t : State} (h : exec i s = .next t) : t.keys = s.keys :=
  Vector.ext fun k hk => exec_frame h (.key ⟨k, hk⟩) key_not_mem_writeSet

theorem exec_rnd_draws {x : Reg} {nn : Byte} {s t : State} (h : exec (.rnd x nn) s = .next t) :
    t.draws = s.draws + 1 :=
  next_inj h ▸ rfl

/-- An instruction other than `RND` consumes no draw (R141). -/
theorem exec_draws_kept {i : Instr} {s t : State} (h : exec i s = .next t)
    (hi : ∀ x nn, i ≠ .rnd x nn) : t.draws = s.draws := by
  cases i with
  | rnd x nn => exact absurd rfl (hi x nn)
  | ret => obtain ⟨_, rfl⟩ | rfl := execRet_next h <;> rfl
  | call => obtain ⟨_, rfl⟩ | rfl := execCall_next h <;> rfl
  | ldVxK => obtain rfl | ⟨_, rfl⟩ := execLdVxK_next h <;> rfl
  | drw => obtain ⟨_, _, rfl⟩ := execDrw_next h; rfl
  | ldBVx => obtain ⟨-, rfl⟩ := execLdBVx_next h; rfl
  | ldMemVx => obtain ⟨-, rfl⟩ := execLdMemVx_next h; rfl
  | ldVxMem => obtain ⟨_, rfl⟩ := execLdVxMem_next h; simp
  | _ => exact next_inj h ▸ rfl

/-- Settles O44: the tick takes one from each timer, which only its own load has changed before. -/
theorem timersTickOncePerStep : Obligations.TimersTickOncePerStep := by
  intro s t h
  obtain ⟨-, u, rfl, ⟨hd, rfl⟩ | ⟨i, hd, hu⟩⟩ := step_next h
  · simp [hd]
  · simp only [hd, Option.some.injEq, ne_eq, State.tick_dt, State.tick_st, tickTimer_toNat]
    refine ⟨fun hi => ?_, ?_, fun hi => ?_, ?_⟩
    · rw [exec_dt_kept hu hi]
    · rintro x rfl
      rw [exec_ldDtVx_dt hu]
    · rw [exec_st_kept hu hi]
    · rintro x rfl
      rw [exec_ldStVx_st hu]

/-- Settles O45: no entry of Table 10-2 holds a key flag, and only `RND`'s meaning counts a draw. -/
theorem stepsKeepKeysAndDrawOnlyForRnd : Obligations.StepsKeepKeysAndDrawOnlyForRnd := by
  intro s t h
  obtain ⟨-, u, rfl, ⟨hd, rfl⟩ | ⟨i, hd, hu⟩⟩ := step_next h
  · simp [hd]
  · simp only [hd, Option.some.injEq, ne_eq, State.tick_keys, State.tick_draws]
    refine ⟨exec_keys hu, ?_, exec_draws_kept hu⟩
    rintro ⟨x, nn, rfl⟩
    exact exec_rnd_draws hu

/-! ### The invariant: memory -/

/-- Every instruction keeps memory in canonical form: the two stores write inside memory, and the
others leave it alone. -/
theorem exec_keeps_wf {i : Instr} {s t : State} (h : exec i s = .next t) (hm : s.mem.wf = true) :
    t.mem.wf = true := by
  cases i with
  | ldBVx =>
    obtain ⟨hr, rfl⟩ := execLdBVx_next h
    exact Memory.wf_writeBytes hm hr
  | ldMemVx x =>
    obtain ⟨hr, rfl⟩ := execLdMemVx_next h
    exact Memory.wf_writeBytes hm (by rw [s.regsUpTo_length x]; exact hr)
  | ret => obtain ⟨_, rfl⟩ | rfl := execRet_next h <;> exact hm
  | call => obtain ⟨_, rfl⟩ | rfl := execCall_next h <;> exact hm
  | ldVxK => obtain rfl | ⟨_, rfl⟩ := execLdVxK_next h <;> exact hm
  | drw => obtain ⟨_, _, rfl⟩ := execDrw_next h; exact hm
  | ldVxMem => obtain ⟨_, rfl⟩ := execLdVxMem_next h; simpa using hm
  | _ => exact next_inj h ▸ hm

/-! ### The invariant: PC -/

/-- The values PC can have after an instruction run in state `s` (R74, R90 to R97, R171). -/
inductive PcAfter (s : State) : Word → Prop where
  /-- The blocked key wait. -/
  | stay : PcAfter s s.pc
  /-- The default advance, a skip not taken, a continuing fault. -/
  | next : PcAfter s (s.pc + 2#16)
  /-- A skip that is taken. -/
  | skip : PcAfter s (s.pc + 4#16)
  /-- A jump or a call. -/
  | jump (nnn : Addr12) : PcAfter s (addrOfNNN nnn)
  /-- A jump by V0. -/
  | jumpV0 (nnn : Addr12) (b : Byte) : PcAfter s (addrOfNNN nnn + zextByte b)
  /-- A return to an address on the stack. -/
  | popped (k : Fin 16) (hk : k.val < s.sp.val) : PcAfter s (s.stack.get k)

theorem PcAfter.skipIf (s : State) (c : Bool) : PcAfter s (s.skipIf c).pc := by
  cases c with
  | false => exact .next
  | true => exact .skip

theorem PcAfter.of_next {s u t : State} (hp : PcAfter s u.pc) (h : (.next u : Result) = .next t) :
    PcAfter s t.pc :=
  next_inj h ▸ hp

/-- What an instruction does to PC. -/
theorem exec_pcAfter {i : Instr} {s t : State} (h : exec i s = .next t) : PcAfter s t.pc := by
  cases i with
  | ret =>
    obtain ⟨hsp, rfl⟩ | rfl := execRet_next h
    · exact .popped ⟨s.sp.val - 1, _⟩ (Nat.sub_lt hsp Nat.one_pos)
    · exact .next
  | call nnn =>
    obtain ⟨_, rfl⟩ | rfl := execCall_next h
    · exact .jump nnn
    · exact .next
  | jp nnn => exact (PcAfter.jump nnn).of_next h
  | jpV0 nnn => exact (PcAfter.jumpV0 nnn (s.getV 0)).of_next h
  | seByte | sneByte | seReg | sneReg | skp | sknp => exact (PcAfter.skipIf s _).of_next h
  | ldVxK =>
    obtain rfl | ⟨_, rfl⟩ := execLdVxK_next h
    · exact .stay
    · exact .next
  | drw => obtain ⟨_, _, rfl⟩ := execDrw_next h; exact .next
  | ldBVx => obtain ⟨-, rfl⟩ := execLdBVx_next h; exact .next
  | ldMemVx => obtain ⟨-, rfl⟩ := execLdMemVx_next h; exact .next
  | ldVxMem => obtain ⟨_, rfl⟩ := execLdVxMem_next h; simpa using PcAfter.next
  | _ => exact next_inj h ▸ .next

@[simp] theorem toNat_addrOfNNN (nnn : Addr12) : (addrOfNNN nnn).toNat = nnn.toNat := by
  rw [addrOfNNN, BitVec.toNat_setWidth_of_le (by decide)]

/-- From an address where a word was fetched PC moves on without wrapping (R74, R14). -/
theorem toNat_pc_add {pc : Word} {n : Nat} (hf : pc.toNat ≤ 4094) (hn : n ≤ 4) :
    (pc + BitVec.ofNat 16 n).toNat = pc.toNat + n := by
  rw [BitVec.toNat_add, BitVec.toNat_ofNat]
  omega

@[simp] theorem toNat_zextByte (b : Byte) : (zextByte b).toNat = b.toNat := by
  rw [zextByte, BitVec.toNat_setWidth_of_le (by decide)]

/-- A fetch inside memory leaves room for an advance or a skip; the largest value is that of the jump
by V0, 0xFFF + 0xFF (R14, R97). -/
theorem PcAfter.bounded {s : State} {a : Word} (hp : PcAfter s a) (hf : s.pc.toNat ≤ 4094)
    (hs : s.StackBounded) : a.toNat ≤ 0x10FE := by
  cases hp with
  | stay => omega
  | next => rw [toNat_pc_add hf (by decide)]; omega
  | skip => rw [toNat_pc_add hf (by decide)]; omega
  | jump nnn => have := nnn.isLt; rw [toNat_addrOfNNN]; omega
  | jumpV0 nnn b =>
    have := nnn.isLt
    have := b.isLt
    rw [BitVec.toNat_add, toNat_addrOfNNN, toNat_zextByte]
    omega
  | popped k hk => have := (hs k hk).2; omega

/-! ### The invariant: the call stack -/

/-- The return address of a call fetched inside memory is a value 2 to 4096 (R91). -/
theorem returnAddress_bounded {pc : Word} (hf : pc.toNat ≤ 4094) :
    2 ≤ (pc + 2#16).toNat ∧ (pc + 2#16).toNat ≤ 4096 := by
  rw [toNat_pc_add hf (by decide)]
  omega

/-- Every instruction keeps the return addresses in range: `RET` uses one slot less, `CALL` pushes the
address after it, and the others leave the stack alone. -/
theorem exec_keeps_stackBounded {i : Instr} {s t : State} (h : exec i s = .next t)
    (hf : s.pc.toNat ≤ 4094) (hs : s.StackBounded) : t.StackBounded := by
  by_cases hret : i = .ret
  · subst hret
    obtain ⟨_, rfl⟩ | rfl := execRet_next h
    · exact fun k hk => hs k (Nat.lt_of_lt_of_le hk (Nat.sub_le _ _))
    · exact hs
  by_cases hcall : ∃ nnn, i = .call nnn
  · obtain ⟨nnn, rfl⟩ := hcall
    obtain ⟨hsp, rfl⟩ | rfl := execCall_next h
    · intro k hk
      rcases Nat.lt_succ_iff_lt_or_eq.1 hk with hlt | heq
      · simpa [Vector.get_eq_getElem, Vector.getElem_set_ne, hlt.ne'] using hs k hlt
      · simpa [Vector.get_eq_getElem, heq] using returnAddress_bounded hf
    · exact hs
  · have hsp : t.sp = s.sp := exec_frame h .sp (by simp [hret, not_exists.1 hcall])
    intro k hk
    have hslot : t.stack.get k = s.stack.get k :=
      exec_frame h (.stackSlot k) fun hm => hcall (call_of_stackSlot_mem_writeSet hm)
    rw [hslot]
    exact hs k (hsp ▸ hk)

/-! ### The invariant: the step -/

/-- Every instruction that was fetched inside memory keeps the invariant. -/
theorem exec_keeps_inv {i : Instr} {s t : State} (h : exec i s = .next t) (hf : s.pc.toNat ≤ 4094)
    (hs : s.Inv) : t.Inv := by
  obtain ⟨hm, -, hstack⟩ := hs
  exact ⟨exec_keeps_wf h hm, (exec_pcAfter h).bounded hf hstack,
    exec_keeps_stackBounded h hf hstack⟩

/-- A continuing fault taken inside memory keeps the invariant. -/
theorem continueFault_keeps_inv {s : State} (f : Fault) (hf : s.pc.toNat ≤ 4094) (hs : s.Inv) :
    (s.continueFault f).Inv := by
  obtain ⟨hm, -, hstack⟩ := hs
  exact ⟨hm, PcAfter.next.bounded hf hstack, hstack⟩

/-- The invariant does not speak of the timers. -/
theorem tick_inv {s : State} : s.tick.Inv ↔ s.Inv := Iff.rfl

/-- Settles O40: the fault of an illegal word and every instruction keep the invariant, and so does the
tick. -/
theorem stepKeepsInvariant : Obligations.StepKeepsInvariant := by
  intro s t hs h
  obtain ⟨hf, u, rfl, ⟨-, rfl⟩ | ⟨i, -, hu⟩⟩ := step_next h
  · exact tick_inv.2 (continueFault_keeps_inv _ hf hs)
  · exact tick_inv.2 (exec_keeps_inv hu hf hs)

/-- Settles O2: nothing is listed in reset memory, PC is 0x200, and the stack is empty. -/
theorem resetMeetsInvariant : Obligations.ResetMeetsInvariant := by
  refine ⟨Memory.wf_nil, ?_, ?_⟩
  · decide
  · intro k hk
    exact absurd hk (Nat.not_lt_zero _)

/-! ### The font -/

/-- The low nibble of a byte is its remainder modulo 16. -/
theorem toNat_and_lowNibble (b : Byte) : (b &&& 0x0F#8).toNat = b.toNat % 16 := by
  rw [BitVec.toNat_and]
  exact Nat.and_two_pow_sub_one_eq_mod b.toNat 4

/-- The glyph address does not wrap (R132, R5). -/
theorem toNat_glyphAddr (b : Byte) :
    (glyphAddr b).toNat = Config.fontBase.val + 5 * (b.toNat % 16) := by
  have hbase := Config.fontBase.isLt
  rw [glyphAddr, toNat_and_lowNibble, BitVec.toNat_ofNat]
  simp only [Config.glyphBytes]
  omega

/-- The 80 bytes from `FONT_BASE` on are the font, which lies below 0x200 (R21, R5). -/
theorem Memory.resetByte_font {j : Nat} (hj : j < 80) :
    Memory.resetByte (Config.fontBase.val + j) = fontBytes.getD j 0#8 := by
  have hbase := Config.fontBase.isLt
  have hlow : Config.fontBase.val + j < Config.loadAddr := by
    simp only [Config.loadAddr]
    omega
  rw [Memory.resetByte, if_pos hlow, if_pos (Nat.le_add_right _ _), Nat.add_sub_cancel_left]

/-- Settles O53: glyph `n` is the five font bytes from `5 * n` on, and all of them are in the font. -/
theorem glyphAddressHoldsGlyph : Obligations.GlyphAddressHoldsGlyph := by
  intro b k hk
  rw [toNat_glyphAddr, Nat.add_assoc]
  exact Memory.resetByte_font (by omega)

end Sys2Proof.Machine

/-! ## Proofs of the family 20_memory: the fetch and the range of the data accesses -/

namespace Sys2Proof.Machine

/-! ### The range check before an instruction -/

@[simp] theorem withRange_zero (s : State) (go : Nat → Result) :
    withRange s 0 go = go s.i.toNat :=
  if_neg (by omega)

/-- `RET` has a next state, with a return address on the stack and without (R91). -/
theorem execRet_total (s : State) : ∃ t, execRet s = .next t := by
  rcases s.pop_cases with ⟨_, _, e, -⟩ | ⟨-, e⟩ <;> exact ⟨_, by rw [execRet, e]⟩

/-- `CALL` has a next state, with a free stack slot and without (R93). -/
theorem execCall_total (nnn : Addr12) (s : State) : ∃ t, execCall nnn s = .next t := by
  rcases s.push_cases (s.pc + 2#16) with ⟨_, _, e, -⟩ | ⟨-, e⟩ <;> exact ⟨_, by rw [execCall, e]⟩

/-- `LD Vx, K` has a next state, blocked or with a key (R171). -/
theorem execLdVxK_total (x : Reg) (s : State) : ∃ t, execLdVxK x s = .next t := by
  rcases lowestKey_cases s.keys with ⟨e, -⟩ | ⟨_, e, -⟩ <;> exact ⟨_, by rw [execLdVxK, e]⟩

/-- The result comes from the range check of `n` bytes and a continuation that always has a next
state, so the check alone decides whether it aborts. -/
def Checked (s : State) (n : Nat) (r : Result) : Prop :=
  ∃ go, r = withRange s n go ∧ ∀ a, ∃ t, go a = .next t

/-- A next state passes the check of no bytes. -/
theorem Checked.of_next {s : State} {r : Result} (h : ∃ t, r = .next t) : Checked s 0 r :=
  ⟨fun _ => r, by rw [withRange_zero], fun _ => h⟩

/-- A check of bytes beyond the end of memory aborts with the lowest address outside it. -/
theorem Checked.eq_fault {s : State} {n : Nat} {r : Result} (h : Checked s n r) (hn : 1 ≤ n)
    (hout : Config.memSize < s.i.toNat + n) :
    r = .fault (.addressFault (max s.i.toNat Config.memSize)) := by
  obtain ⟨go, rfl, -⟩ := h
  rcases withRange_cases s n go with ⟨hin, -⟩ | ⟨-, e⟩
  · omega
  · exact e

/-- A check of no bytes, or of bytes inside memory, leaves a next state. -/
theorem Checked.exists_next {s : State} {n : Nat} {r : Result} (h : Checked s n r)
    (hin : n = 0 ∨ s.i.toNat + n ≤ Config.memSize) : ∃ t, r = .next t := by
  obtain ⟨go, rfl, hgo⟩ := h
  rcases withRange_cases s n go with ⟨-, e⟩ | ⟨hout, -⟩
  · rw [e]
    exact hgo _
  · omega

/-- Every instruction checks the bytes it accesses and can end in nothing else but a next state
(R36, R198). -/
theorem exec_checked (i : Instr) (s : State) : Checked s (accessBytes i) (exec i s) := by
  cases i with
  | drw | ldBVx | ldMemVx | ldVxMem => exact ⟨_, rfl, fun _ => ⟨_, rfl⟩⟩
  | ret => exact .of_next (execRet_total s)
  | call nnn => exact .of_next (execCall_total nnn s)
  | ldVxK x => exact .of_next (execLdVxK_total x s)
  | _ => exact .of_next ⟨_, rfl⟩

/-- Settles O42: every instruction is its range check followed by a meaning that has a next state. -/
theorem abortsExactlyOutsideMemory : Obligations.AbortsExactlyOutsideMemory :=
  fun i s => ⟨(exec_checked i s).eq_fault, (exec_checked i s).exists_next⟩

/-! ### Stored bytes and the fetch -/

/-- After `LD [I], Vx` byte `I + j` is `Vj`, for every `j` up to `x` (R175). -/
theorem exec_ldMemVx_read {x j : Reg} {s t : State} (hm : s.mem.wf = true)
    (h : exec (.ldMemVx x) s = .next t) (hj : j ≤ x) :
    t.mem.read (s.i.toNat + j.val) = s.getV j := by
  obtain ⟨hr, rfl⟩ := execLdMemVx_next h
  have hlen := s.regsUpTo_length x
  have hjx : j.val ≤ x.val := hj
  have hstored : s.i.toNat ≤ s.i.toNat + j.val ∧
      s.i.toNat + j.val < s.i.toNat + (s.regsUpTo x).length := by omega
  calc (s.mem.writeBytes s.i.toNat (s.regsUpTo x)).read (s.i.toNat + j.val)
      = (s.regsUpTo x).getD (s.i.toNat + j.val - s.i.toNat) 0#8 := by
        rw [Memory.read_writeBytes hm (by omega), if_pos hstored]
    _ = s.getV j := by rw [Nat.add_sub_cancel_left, s.getD_regsUpTo x j hj]

theorem exec_ldMemVx_pc {x : Reg} {s t : State} (h : exec (.ldMemVx x) s = .next t) :
    t.pc = s.pc + 2#16 := by
  obtain ⟨-, rfl⟩ := execLdMemVx_next h
  rfl

/-- Settles O52: PC advances to `I`, where V0 and V1 were stored. -/
theorem storedWordIsFetchedNext : Obligations.StoredWordIsFetchedNext := by
  intro x s t hm hx hi h
  have hpc : t.pc = s.i := (exec_ldMemVx_pc h).trans hi.symm
  have hhigh : t.mem.read s.i.toNat = s.getV 0 := exec_ldMemVx_read (j := 0) hm h (Fin.zero_le x)
  have hlow : t.mem.read (s.i.toNat + 1) = s.getV 1 := exec_ldMemVx_read (j := 1) hm h hx
  rw [State.fetchWord, hpc, hhigh, hlow]

/-- Settles O4: above 4094 the fetch fault is the only case of a step. -/
theorem fetchOutsideMemoryFaults : Obligations.FetchOutsideMemoryFaults := by
  intro s hpc
  rcases step_cases s with ⟨-, e⟩ | ⟨hin, -, -⟩ | ⟨_, hin, -, -⟩
  · exact e
  · omega
  · omega

end Sys2Proof.Machine

/-! ## Proofs of the family 30_encoding: the decoder and the encoder -/

namespace Sys2Proof

/-! ### The fields of a word as numbers (R51) -/

@[simp] theorem Fields.toNat_ofWord_f (w : Word) : (Fields.ofWord w).f.toNat = w.toNat / 4096 := by
  simp [Fields.ofWord, Nat.shiftRight_eq_div_pow]
  omega

@[simp] theorem Fields.toNat_ofWord_n (w : Word) : (Fields.ofWord w).n.toNat = w.toNat % 16 := by
  simp [Fields.ofWord]

@[simp] theorem Fields.toNat_ofWord_nn (w : Word) : (Fields.ofWord w).nn.toNat = w.toNat % 256 := by
  simp [Fields.ofWord]

@[simp] theorem Fields.toNat_ofWord_nnn (w : Word) :
    (Fields.ofWord w).nnn.toNat = w.toNat % 4096 := by
  simp [Fields.ofWord]

/-! ### Every instruction decodes from its word -/

/-- The decoder's fields of a packed word are the operands it was packed from, so the family and the
secondary opcode select the instruction again. -/
theorem decodeWord_encode (i : Instr) : decodeWord (encode i) = some i := by
  cases i with
  | cls | ret => decide
  | jp | call | ldI | jpV0 => simp [encode, decodeWord, decodeFields, Fields.ofWord_packNNN]
  | seByte | sneByte | ldByte | addByte | rnd =>
    simp [encode, decodeWord, decodeFields, Fields.ofWord_packXNN]
  | skp | sknp =>
    simp [encode, decodeWord, decodeFields, decodeFamilyE, Fields.ofWord_packXNN]
  | ldVxDt | ldVxK | ldDtVx | ldStVx | addIVx | ldFVx | ldBVx | ldMemVx | ldVxMem =>
    simp [encode, decodeWord, decodeFields, decodeFamilyF, Fields.ofWord_packXNN]
  | seReg => simp [encode, decodeWord, decodeFields, decodeFamily5, Fields.ofWord_packXYN]
  | sneReg => simp [encode, decodeWord, decodeFields, decodeFamily9, Fields.ofWord_packXYN]
  | ldReg | orReg | andReg | xorReg | addReg | sub | shr | subn | shl =>
    simp [encode, decodeWord, decodeFields, decodeFamily8, Fields.ofWord_packXYN]
  | drw => simp [encode, decodeWord, decodeFields, Fields.ofWord_packXYN]

/-- Settles O36: the two bytes join to the instruction's word, which decodes to the instruction. -/
theorem decodeOfEncode : Obligations.DecodeOfEncode := by
  intro i rest
  simp [encodeBytes, decode, decodeWord_encode]

/-! ### Every instruction word is the encoding of its instruction -/

section
variable {w : Word} {f n : Nibble} {nn : Byte} {i : Instr}

theorem packNNN_of_fields (hf : (Fields.ofWord w).f = f) :
    packNNN f (Fields.ofWord w).nnn = w := by
  rw [← hf, packNNN_ofWord]

theorem packXNN_of_fields (hf : (Fields.ofWord w).f = f) (hnn : (Fields.ofWord w).nn = nn) :
    packXNN f (Reg.ofNibble (Fields.ofWord w).x) nn = w := by
  rw [← hf, ← hnn, packXNN_ofWord]

theorem packXYN_of_fields (hf : (Fields.ofWord w).f = f) (hn : (Fields.ofWord w).n = n) :
    packXYN f (Reg.ofNibble (Fields.ofWord w).x) (Reg.ofNibble (Fields.ofWord w).y) n = w := by
  rw [← hf, ← hn, packXYN_ofWord]

theorem encode_of_decodeFamily0 (hf : (Fields.ofWord w).f = 0x0#4)
    (h : decodeFamily0 (Fields.ofWord w) = some i) : encode i = w := by
  unfold decodeFamily0 at h
  split at h <;> cases h
  case h_1 hnnn | h_2 hnnn => exact .trans (by rw [hnnn]; rfl) (packNNN_of_fields hf)

theorem encode_of_decodeFamily5 (hf : (Fields.ofWord w).f = 0x5#4)
    (h : decodeFamily5 (Fields.ofWord w) = some i) : encode i = w := by
  unfold decodeFamily5 at h
  split at h <;> cases h
  exact packXYN_of_fields hf ‹_›

theorem encode_of_decodeFamily8 (hf : (Fields.ofWord w).f = 0x8#4)
    (h : decodeFamily8 (Fields.ofWord w) = some i) : encode i = w := by
  unfold decodeFamily8 at h
  split at h <;> cases h <;> exact packXYN_of_fields hf ‹_›

theorem encode_of_decodeFamily9 (hf : (Fields.ofWord w).f = 0x9#4)
    (h : decodeFamily9 (Fields.ofWord w) = some i) : encode i = w := by
  unfold decodeFamily9 at h
  split at h <;> cases h
  exact packXYN_of_fields hf ‹_›

theorem encode_of_decodeFamilyE (hf : (Fields.ofWord w).f = 0xE#4)
    (h : decodeFamilyE (Fields.ofWord w) = some i) : encode i = w := by
  unfold decodeFamilyE at h
  split at h <;> cases h <;> exact packXNN_of_fields hf ‹_›

theorem encode_of_decodeFamilyF (hf : (Fields.ofWord w).f = 0xF#4)
    (h : decodeFamilyF (Fields.ofWord w) = some i) : encode i = w := by
  unfold decodeFamilyF at h
  split at h <;> cases h <;> exact packXNN_of_fields hf ‹_›

end

/-- Settles O37: family by family, the fields pack to the word they were read from. -/
theorem encodeOfDecode : Obligations.EncodeOfDecode := by
  intro w i h
  unfold decodeWord decodeFields at h
  split at h
  -- The goal `h_k` is family `k - 1`; `h_17` is the branch that no family takes.
  case h_1 hf => exact encode_of_decodeFamily0 hf h
  case h_6 hf => exact encode_of_decodeFamily5 hf h
  case h_9 hf => exact encode_of_decodeFamily8 hf h
  case h_10 hf => exact encode_of_decodeFamily9 hf h
  case h_15 hf => exact encode_of_decodeFamilyE hf h
  case h_16 hf => exact encode_of_decodeFamilyF hf h
  case h_2 hf | h_3 hf | h_11 hf | h_12 hf =>
    cases h
    exact packNNN_of_fields hf
  case h_4 hf | h_5 hf | h_7 hf | h_8 hf | h_13 hf =>
    cases h
    exact packXNN_of_fields hf rfl
  case h_14 hf =>
    cases h
    exact packXYN_of_fields hf rfl
  case h_17 => cases h

/-- The decoder and the encoder are inverse to each other. -/
theorem decodeWord_eq_some_iff {w : Word} {i : Instr} : decodeWord w = some i ↔ encode i = w :=
  ⟨encodeOfDecode w i, fun h => h ▸ decodeWord_encode i⟩

/-! ### The rows of Table 30-3 -/

/-- An instruction's word has the mask and match values of the instruction's row (R56). -/
theorem opcodeRow_admits_encode (i : Instr) : (opcodeRow i).admits (encode i) = true := by
  cases i with
  | cls => exact Laws.FixedBits.cls
  | ret => exact Laws.FixedBits.ret
  | jp => exact Laws.FixedBits.jp _
  | call => exact Laws.FixedBits.call _
  | seByte => exact Laws.FixedBits.seByte _ _
  | sneByte => exact Laws.FixedBits.sneByte _ _
  | seReg => exact Laws.FixedBits.seReg _ _
  | ldByte => exact Laws.FixedBits.ldByte _ _
  | addByte => exact Laws.FixedBits.addByte _ _
  | ldReg => exact Laws.FixedBits.ldReg _ _
  | orReg => exact Laws.FixedBits.orReg _ _
  | andReg => exact Laws.FixedBits.andReg _ _
  | xorReg => exact Laws.FixedBits.xorReg _ _
  | addReg => exact Laws.FixedBits.addReg _ _
  | sub => exact Laws.FixedBits.sub _ _
  | shr => exact Laws.FixedBits.shr _ _
  | subn => exact Laws.FixedBits.subn _ _
  | shl => exact Laws.FixedBits.shl _ _
  | sneReg => exact Laws.FixedBits.sneReg _ _
  | ldI => exact Laws.FixedBits.ldI _
  | jpV0 => exact Laws.FixedBits.jpV0 _
  | rnd => exact Laws.FixedBits.rnd _ _
  | drw => exact Laws.FixedBits.drw _ _ _
  | skp => exact Laws.FixedBits.skp _
  | sknp => exact Laws.FixedBits.sknp _
  | ldVxDt => exact Laws.FixedBits.ldVxDt _
  | ldVxK => exact Laws.FixedBits.ldVxK _
  | ldDtVx => exact Laws.FixedBits.ldDtVx _
  | ldStVx => exact Laws.FixedBits.ldStVx _
  | addIVx => exact Laws.FixedBits.addIVx _
  | ldFVx => exact Laws.FixedBits.ldFVx _
  | ldBVx => exact Laws.FixedBits.ldBVx _
  | ldMemVx => exact Laws.FixedBits.ldMemVx _
  | ldVxMem => exact Laws.FixedBits.ldVxMem _

/-- Where a row's mask is all ones, the row's words agree with its match value. -/
theorem OpcodeRow.extractLsb'_eq_of_admits {r : OpcodeRow} {w : Word} (h : r.admits w = true)
    {start len : Nat} (hm : r.mask.extractLsb' start len = BitVec.allOnes len) :
    w.extractLsb' start len = r.pattern.extractLsb' start len := by
  have hw : w &&& r.mask = r.pattern := by simpa [OpcodeRow.admits] using h
  rw [← hw, BitVec.extractLsb'_and, hm, BitVec.and_allOnes]

/-- Every row fixes the family (R54). -/
theorem family_eq_of_admits {w : Word} {i : Instr} (h : (opcodeRow i).admits w = true) :
    (Fields.ofWord w).f = (opcodeRow i).pattern.extractLsb' 12 4 :=
  OpcodeRow.extractLsb'_eq_of_admits h (by cases i <;> simp [opcodeRow])

section
variable {w p : Word}

/-- The rows of families 5, 8 and 9 fix N. -/
theorem OpcodeRow.n_eq_of_admits (h : OpcodeRow.admits ⟨0xF00F#16, p⟩ w = true) :
    (Fields.ofWord w).n = p.extractLsb' 0 4 :=
  OpcodeRow.extractLsb'_eq_of_admits h (show BitVec.extractLsb' 0 4 0xF00F#16 = _ by decide)

/-- The rows of families E and F fix NN. -/
theorem OpcodeRow.nn_eq_of_admits (h : OpcodeRow.admits ⟨0xF0FF#16, p⟩ w = true) :
    (Fields.ofWord w).nn = p.extractLsb' 0 8 :=
  OpcodeRow.extractLsb'_eq_of_admits h (show BitVec.extractLsb' 0 8 0xF0FF#16 = _ by decide)

/-- The rows of family 0 fix the whole word, NNN with it. -/
theorem OpcodeRow.nnn_eq_of_admits (h : OpcodeRow.admits ⟨0xFFFF#16, p⟩ w = true) :
    (Fields.ofWord w).nnn = p.extractLsb' 0 12 :=
  OpcodeRow.extractLsb'_eq_of_admits h (show BitVec.extractLsb' 0 12 0xFFFF#16 = _ by decide)

end

/-- The fields that a row's mask fixes decide the decoder's branch: the family in every row, and
with it the secondary opcode NNN, N or NN in the rows of the six families that have one (R54). -/
theorem exists_decodeWord_of_admits {w : Word} {i : Instr} (h : (opcodeRow i).admits w = true) :
    ∃ j, decodeWord w = some j ∧ opcodeRow j = opcodeRow i := by
  have hf := family_eq_of_admits h
  cases i with
  | cls | ret =>
    simp [decodeWord, decodeFields, decodeFamily0, hf, OpcodeRow.nnn_eq_of_admits h, opcodeRow]
  | seReg | sneReg =>
    simp [decodeWord, decodeFields, decodeFamily5, decodeFamily9, hf, OpcodeRow.n_eq_of_admits h,
      opcodeRow]
  | ldReg | orReg | andReg | xorReg | addReg | sub | shr | subn | shl =>
    simp [decodeWord, decodeFields, decodeFamily8, hf, OpcodeRow.n_eq_of_admits h, opcodeRow]
  | skp | sknp =>
    simp [decodeWord, decodeFields, decodeFamilyE, hf, OpcodeRow.nn_eq_of_admits h, opcodeRow]
  | ldVxDt | ldVxK | ldDtVx | ldStVx | addIVx | ldFVx | ldBVx | ldMemVx | ldVxMem =>
    simp [decodeWord, decodeFields, decodeFamilyF, hf, OpcodeRow.nn_eq_of_admits h, opcodeRow]
  | _ => simp [decodeWord, decodeFields, hf, opcodeRow]

/-- Settles O39: the word of a row's instruction is that instruction's encoding, which has the fixed
bits of the row. -/
theorem tableRowsDecideDecoding : Obligations.TableRowsDecideDecoding := by
  intro w i
  constructor
  · exact exists_decodeWord_of_admits
  · rintro ⟨j, hj, hrow⟩
    rw [← hrow, ← decodeWord_eq_some_iff.1 hj]
    exact opcodeRow_admits_encode j

/-! ### The illegal words -/

section
variable (d : Fields)

theorem decodeFamily0_eq_none_iff : decodeFamily0 d = none ↔ d.legalFamily0 = false := by
  unfold decodeFamily0 Fields.legalFamily0
  split <;> simp_all

theorem decodeFamily5_eq_none_iff : decodeFamily5 d = none ↔ d.legalFamily5or9 = false := by
  simp [decodeFamily5, Fields.legalFamily5or9]

theorem decodeFamily8_eq_none_iff : decodeFamily8 d = none ↔ d.legalFamily8 = false := by
  unfold decodeFamily8 Fields.legalFamily8
  split
  case h_10 =>
    -- N is none of the nine secondary opcodes, so it is above 7 and not 0xE.
    simp only [imp_false] at *
    simp only [true_iff, Bool.or_eq_false_iff, decide_eq_false_iff_not, beq_eq_false_iff_ne]
    bv_omega
  all_goals simp [*]

theorem decodeFamily9_eq_none_iff : decodeFamily9 d = none ↔ d.legalFamily5or9 = false := by
  simp [decodeFamily9, Fields.legalFamily5or9]

theorem decodeFamilyE_eq_none_iff : decodeFamilyE d = none ↔ d.legalFamilyE = false := by
  unfold decodeFamilyE Fields.legalFamilyE
  split <;> simp_all

theorem decodeFamilyF_eq_none_iff : decodeFamilyF d = none ↔ d.legalFamilyF = false := by
  unfold decodeFamilyF Fields.legalFamilyF
  split <;> simp_all

/-- The decoder refuses exactly the fields that the legality check refuses (R50, R54). -/
theorem decodeFields_eq_none_iff : decodeFields d = none ↔ d.legal = false := by
  unfold decodeFields Fields.legal
  split
  case h_17 =>
    -- The sixteen patterns above leave no family over.
    simp only [imp_false] at *
    bv_omega
  all_goals
    simp [*, decodeFamily0_eq_none_iff, decodeFamily5_eq_none_iff, decodeFamily8_eq_none_iff,
      decodeFamily9_eq_none_iff, decodeFamilyE_eq_none_iff, decodeFamilyF_eq_none_iff]

end

/-- R57's list of the illegal words, as the numbers in the word's fields. -/
theorem Fields.legal_ofWord_eq_false_iff (w : Word) :
    (Fields.ofWord w).legal = false ↔
      (w.toNat / 4096 = 0 ∧ w.toNat % 4096 ∉ [0x0E0, 0x0EE]) ∨
      (w.toNat / 4096 = 5 ∧ w.toNat % 16 ≠ 0) ∨
      (w.toNat / 4096 = 8 ∧ w.toNat % 16 ∈ [8, 9, 0xA, 0xB, 0xC, 0xD, 0xF]) ∨
      (w.toNat / 4096 = 9 ∧ w.toNat % 16 ≠ 0) ∨
      (w.toNat / 4096 = 0xE ∧ w.toNat % 256 ∉ [0x9E, 0xA1]) ∨
      (w.toNat / 4096 = 0xF ∧
        w.toNat % 256 ∉ [0x07, 0x0A, 0x15, 0x18, 0x1E, 0x29, 0x33, 0x55, 0x65]) := by
  simp only [Fields.legal, Fields.legalFamily0, Fields.legalFamily5or9, Fields.legalFamily8,
    Fields.legalFamilyE, Fields.legalFamilyF, ← BitVec.toNat_inj, Fields.toNat_ofWord_f,
    BitVec.toNat_ofNat]
  split_ifs <;> simp [*, ← BitVec.toNat_inj]
  -- Left over is family 8: the legality check bounds N by 7, and the list counts its values.
  omega

/-- Settles O38: the decoder refuses what the legality check refuses, and the check read in numbers
is R57's list. -/
theorem illegalWordsAreExactly : Obligations.IllegalWordsAreExactly := fun w =>
  have h := decodeFields_eq_none_iff (Fields.ofWord w)
  ⟨h.trans (Fields.legal_ofWord_eq_false_iff w), h⟩

/-- Settles O6: the decoder evaluated on the nineteen pairs of bytes. -/
theorem sampleWordsDecode : Obligations.SampleWordsDecode := by
  unfold Obligations.SampleWordsDecode
  decide

end Sys2Proof

/-! ## Proofs of the family 40_cycle: what a step runs, and how an instruction ends -/

namespace Sys2Proof

/-- Two bytes decode to the instruction of their big-endian word (R31, R54). -/
@[simp] theorem decode_pair_eq_instr_iff {hi lo : Byte} {i : Instr} :
    decode [hi, lo] = .instr i [] ↔ decodeWord (wordOfBytes hi lo) = some i := by
  cases h : decodeWord (wordOfBytes hi lo) <;> simp [decode, h]

end Sys2Proof

namespace Sys2Proof.Machine

/-! ### The step by what was fetched (R70 to R72) -/

/-- A step whose word is legal is that word's instruction and the tick. -/
theorem step_of_decodeWord_some {s : State} {i : Instr} (hpc : s.pc.toNat ≤ 4094)
    (hd : decodeWord s.fetchWord = some i) : step s = tickAfter (exec i s) := by
  rcases step_cases s with ⟨hout, -⟩ | ⟨-, hnone, -⟩ | ⟨j, -, hj, e⟩
  · omega
  · simp [hd] at hnone
  · obtain rfl : i = j := by simpa [hd] using hj
    exact e

/-- A step whose word is illegal is the continuing fault and the tick (R76). -/
theorem step_of_decodeWord_none {s : State} (hpc : s.pc.toNat ≤ 4094)
    (hd : decodeWord s.fetchWord = none) :
    step s = .next (s.continueFault (.unknownOpcode s.fetchWord s.pc)).tick := by
  rcases step_cases s with ⟨hout, -⟩ | ⟨-, -, e⟩ | ⟨j, -, hj, -⟩
  · omega
  · exact e
  · simp [hd] at hj

/-- Settles O3: the bytes at PC are the fetched word, and the three results of the instruction are
the three cases of the tick. -/
theorem stepRunsDecodedInstruction : Obligations.StepRunsDecodedInstruction := by
  intro s i hpc hd
  rw [step_of_decodeWord_some hpc (decode_pair_eq_instr_iff.1 hd)]
  cases exec i s <;> rfl

/-- The tick changes the two timers alone (R72). -/
theorem frame_tick (s : State) : Frame s s.tick [.dt, .st] := by
  intro p hp
  cases p with
  | dt | st => simp at hp
  | _ => rfl

/-- Settles O5: the continuing fault changes no part, and the tick the timers alone. -/
theorem illegalWordIsReportedAndPassed : Obligations.IllegalWordIsReportedAndPassed := by
  intro s hpc hd
  refine ⟨_, step_of_decodeWord_none hpc hd, rfl, rfl, ?_, ?_, ?_⟩
  · exact tickTimer_toNat s.dt
  · exact tickTimer_toNat s.st
  · exact (frame_continueFault s _ []).trans (frame_tick _)

/-! ### How an instruction ends (R73, R190) -/

/-- `RET` completes, or the stack is empty and the underflow is all it reports (R91, R193). -/
theorem execRet_ends {s t : State} (h : execRet s = .next t) :
    t.outcome = .ok ∨ (s.sp.val = 0 ∧ t = s.continueFault (.stackUnderflow s.pc)) := by
  rcases s.pop_cases with ⟨_, _, e, -⟩ | ⟨hsp, e⟩ <;> rw [execRet, e] at h
  · exact .inl (next_inj h ▸ rfl)
  · exact .inr ⟨hsp, (next_inj h).symm⟩

/-- `CALL` completes, or the stack is full and the overflow is all it reports (R93, R194). -/
theorem execCall_ends {nnn : Addr12} {s t : State} (h : execCall nnn s = .next t) :
    t.outcome = .ok ∨ (s.sp.val = 16 ∧ t = s.continueFault (.stackOverflow s.pc)) := by
  rcases s.push_cases (s.pc + 2#16) with ⟨_, _, e, -⟩ | ⟨hsp, e⟩ <;> rw [execCall, e] at h
  · exact .inl (next_inj h ▸ rfl)
  · exact .inr ⟨hsp, (next_inj h).symm⟩

/-- `LD Vx, K` completes, or no key is pressed and it is blocked (R171). -/
theorem execLdVxK_ends {x : Reg} {s t : State} (h : execLdVxK x s = .next t) :
    t.outcome = .ok ∨ ((∀ k, s.keys.get k = false) ∧ t = s.block) := by
  rcases lowestKey_cases s.keys with ⟨e, hkeys⟩ | ⟨k, e, -⟩ <;> rw [execLdVxK, e] at h
  · exact .inr ⟨hkeys, (next_inj h).symm⟩
  · exact .inl (next_inj h ▸ rfl)

/-- An instruction that has a next state completes, except for the three that have another way to
end: the key wait, `RET` and `CALL`. -/
theorem exec_ends {i : Instr} {s t : State} (h : exec i s = .next t) :
    t.outcome = .ok ∨
    ((∃ x, i = .ldVxK x) ∧ (∀ k, s.keys.get k = false) ∧ t = s.block) ∨
    (i = .ret ∧ s.sp.val = 0 ∧ t = s.continueFault (.stackUnderflow s.pc)) ∨
    ((∃ nnn, i = .call nnn) ∧ s.sp.val = 16 ∧ t = s.continueFault (.stackOverflow s.pc)) := by
  cases i with
  | ldVxK x => exact (execLdVxK_ends h).imp_right fun hb => .inl ⟨⟨x, rfl⟩, hb⟩
  | ret => exact (execRet_ends h).imp_right fun hu => .inr (.inl ⟨rfl, hu⟩)
  | call nnn => exact (execCall_ends h).imp_right fun ho => .inr (.inr ⟨⟨nnn, rfl⟩, ho⟩)
  | drw => obtain ⟨_, _, rfl⟩ := execDrw_next h; exact .inl rfl
  | ldBVx => obtain ⟨-, rfl⟩ := execLdBVx_next h; exact .inl rfl
  | ldMemVx => obtain ⟨-, rfl⟩ := execLdMemVx_next h; exact .inl rfl
  | ldVxMem => obtain ⟨_, rfl⟩ := execLdVxMem_next h; exact .inl rfl
  | _ => exact .inl (next_inj h ▸ rfl)

/-- Settles O46: the blocked wait changes no part, and a continuing fault changes PC alone. -/
theorem outcomesOfInstructions : Obligations.OutcomesOfInstructions := by
  intro i s t h
  rcases exec_ends h with hok | ⟨hi, hkeys, rfl⟩ | ⟨hi, hsp, rfl⟩ | ⟨hi, hsp, rfl⟩
  · exact .inl hok
  · exact .inr (.inl ⟨rfl, hi, hkeys, rfl, frame_block s []⟩)
  · exact .inr (.inr (.inl ⟨rfl, hi, hsp, rfl, frame_continueFault s _ []⟩))
  · exact .inr (.inr (.inr ⟨rfl, hi, hsp, rfl, frame_continueFault s _ []⟩))

end Sys2Proof.Machine

/-! ## Proofs of the family 41_control_flow: return, call, jumps and skips -/

namespace Sys2Proof.Machine

/-! ### Return and call (R91, R93) -/

/-- `RET` with a return address on the stack pops slot `sp - 1` into PC. -/
theorem execRet_of_pos {s : State} (hsp : 0 < s.sp.val) :
    execRet s = .next (State.complete { s with sp := ⟨s.sp.val - 1, by omega⟩ }
      (s.stack.get ⟨s.sp.val - 1, by omega⟩)) := by
  rcases s.pop_cases with ⟨_, _, e, rfl⟩ | ⟨h0, -⟩
  · rw [execRet, e]
  · omega

/-- `RET` on an empty stack is the continuing fault StackUnderflow. -/
theorem execRet_of_empty {s : State} (hsp : s.sp.val = 0) :
    execRet s = .next (s.continueFault (.stackUnderflow s.pc)) := by
  rcases s.pop_cases with ⟨hpos, _⟩ | ⟨-, e⟩
  · omega
  · rw [execRet, e]

/-- `CALL` with a free slot writes the return address to slot `sp` and jumps. -/
theorem execCall_of_lt {nnn : Addr12} {s : State} (hsp : s.sp.val < 16) :
    execCall nnn s = .next (State.complete { s with
      stack := s.stack.set s.sp.val (s.pc + 2#16), sp := ⟨s.sp.val + 1, by omega⟩ }
      (addrOfNNN nnn)) := by
  rcases s.push_cases (s.pc + 2#16) with ⟨_, _, e, rfl⟩ | ⟨h16, -⟩
  · rw [execCall, e]
  · omega

/-- `CALL` on a full stack is the continuing fault StackOverflow. -/
theorem execCall_of_full {nnn : Addr12} {s : State} (hsp : s.sp.val = 16) :
    execCall nnn s = .next (s.continueFault (.stackOverflow s.pc)) := by
  rcases s.push_cases (s.pc + 2#16) with ⟨hlt, _⟩ | ⟨-, e⟩
  · omega
  · rw [execCall, e]

/-- Settles O7, from the two cases of `RET`. -/
theorem retPopsOrUnderflows : Obligations.RetPopsOrUnderflows := by
  intro s
  refine ⟨decodeWord_encode .ret, fun hsp => ?_, fun hsp => ?_⟩
  · have hslot : Fin.ofNat 16 (s.sp.val - 1) = ⟨s.sp.val - 1, by omega⟩ :=
      Fin.ext (Nat.mod_eq_of_lt (by omega))
    exact ⟨_, execRet_of_pos hsp, by rw [hslot, State.complete_pc], rfl, rfl,
      (frame_setSp s _).complete _⟩
  · exact ⟨_, execRet_of_empty hsp, rfl, rfl, frame_continueFault s _ []⟩

/-- Settles O9, from the two cases of `CALL`. -/
theorem callPushesOrOverflows : Obligations.CallPushesOrOverflows := by
  intro nnn s
  refine ⟨decodeWord_encode (.call nnn), fun hsp => ?_, fun hsp => ?_⟩
  · exact ⟨_, execCall_of_lt hsp, by simp [Vector.get_eq_getElem, Nat.mod_eq_of_lt hsp], rfl,
      toNat_addrOfNNN nnn, rfl, (frame_push s _ _ hsp).complete _⟩
  · exact ⟨_, execCall_of_full hsp, rfl, rfl, frame_continueFault s _ []⟩

/-- Settles O50, from O9 and O7: the slot that `RET` pops is the one that `CALL` wrote. -/
theorem callThenReturnComesBack : Obligations.CallThenReturnComesBack := by
  intro nnn s t hsp ht
  obtain ⟨-, hpush, -⟩ := callPushesOrOverflows nnn s
  obtain ⟨t', ht', hslot, hdepth, -⟩ := hpush hsp
  obtain rfl : t' = t := next_inj (ht'.symm.trans ht)
  obtain ⟨-, hpop, -⟩ := retPopsOrUnderflows t'
  obtain ⟨u, hu, hpc, hback, hok, -⟩ := hpop (by omega)
  have hpopped : t'.sp.val - 1 = s.sp.val := by omega
  rw [hpopped] at hpc hback
  exact ⟨u, hu, hpc.trans hslot, Fin.ext hback, hok⟩

/-! ### Jumps (R92, R97) -/

/-- Settles O8: `JP` completes at the zero-extended address. -/
theorem jumpSetsPc : Obligations.JumpSetsPc := fun nnn s =>
  ⟨decodeWord_encode (.jp nnn), _, rfl, toNat_addrOfNNN nnn, rfl, (Frame.refl s).complete _⟩

/-- The sum of an address and a byte is at most 0xFFF + 0xFF, so it needs no more than 16 bits (R97). -/
theorem toNat_addrOfNNN_add_zextByte (nnn : Addr12) (b : Byte) :
    (addrOfNNN nnn + zextByte b).toNat = nnn.toNat + b.toNat := by
  have hn := nnn.isLt
  have hb := b.isLt
  rw [BitVec.toNat_add, toNat_addrOfNNN, toNat_zextByte]
  omega

/-- Settles O12: the 16-bit sum does not wrap. -/
theorem jumpWithOffsetAddsV0 : Obligations.JumpWithOffsetAddsV0 := fun nnn s =>
  ⟨decodeWord_encode (.jpV0 nnn), _, rfl, toNat_addrOfNNN_add_zextByte nnn (s.getV 0), rfl,
    (Frame.refl s).complete _⟩

/-! ### Skips (R94 to R96, R98) -/

/-- What a skip on the condition `P` does: PC + 4 where it holds, PC + 2 where not, outcome Ok, and no
part changes (class (b) of R74). -/
theorem exists_next_skipIf (s : State) {c : Bool} {P : Prop} [Decidable P] (hc : c = true ↔ P) :
    ∃ t, (.next (s.skipIf c) : Result) = .next t ∧
      t.pc = (if P then s.pc + 4#16 else s.pc + 2#16) ∧ t.outcome = .ok ∧ Frame s t [] :=
  ⟨_, rfl, by simp only [State.skipIf_pc, hc], rfl, frame_skipIf s c⟩

/-- In families 5 and 9 a low nibble other than 0 makes the word illegal (R54). -/
theorem decodeWord_packXYN_eq_none {f n : Nibble} (hf : f = 0x5#4 ∨ f = 0x9#4) (hn : n ≠ 0#4)
    (x y : Reg) : decodeWord (packXYN f x y n) = none := by
  have hlegal : (Fields.ofWord (packXYN f x y n)).legal = false := by
    obtain rfl | rfl := hf <;>
      simp [Fields.legal, Fields.legalFamily5or9, Fields.ofWord_packXYN, hn]
  exact (decodeFields_eq_none_iff _).2 hlegal

/-- Settles O10: both words are packed by format XNN, and both meanings are skips. -/
theorem skipsOnByteCompare : Obligations.SkipsOnByteCompare := fun x nn s =>
  ⟨decodeWord_eq_some_iff.2 (packXNN_eq_wordXNN 0x3#4 x nn),
    decodeWord_eq_some_iff.2 (packXNN_eq_wordXNN 0x4#4 x nn),
    exists_next_skipIf s beq_iff_eq, exists_next_skipIf s bne_iff_ne⟩

/-- Settles O11: as for the byte compares, with the words of format XY, which a low nibble other than 0
makes illegal. -/
theorem skipsOnRegisterCompare : Obligations.SkipsOnRegisterCompare := by
  intro x y s
  refine ⟨decodeWord_eq_some_iff.2 (packXYN_eq_wordXY 0x5#4 x y 0#4),
    decodeWord_eq_some_iff.2 (packXYN_eq_wordXY 0x9#4 x y 0#4), fun n hn => ⟨?_, ?_⟩,
    exists_next_skipIf s beq_iff_eq, exists_next_skipIf s bne_iff_ne⟩
  · exact packXYN_eq_wordXYN 0x5#4 x y n ▸ decodeWord_packXYN_eq_none (.inl rfl) hn x y
  · exact packXYN_eq_wordXYN 0x9#4 x y n ▸ decodeWord_packXYN_eq_none (.inr rfl) hn x y

end Sys2Proof.Machine

/-! ## Proofs of the family 42_alu: register load and arithmetic -/

namespace Sys2Proof.Machine

/-! ### The two ways an arithmetic instruction ends (R74, R77) -/

/-- What writing `b` to Vx and advancing does: whatever a state with `b` in Vx satisfies, PC + 2, outcome
Ok, and no part but Vx changes; VF is written only as the destination. -/
theorem exists_next_setV (s : State) (x : Reg) {b : Byte} {R : State → Prop}
    (hR : ∀ t : State, t.getV x = b → R t) :
    ∃ t, (.next (s.setV x b).advance : Result) = .next t ∧ R t ∧
      t.pc = s.pc + 2#16 ∧ t.outcome = .ok ∧ Frame s t [.v x] :=
  ⟨_, rfl, hR _ (by simp), rfl, rfl, (frame_setV s x b).advance⟩

/-- What writing a result and then a flag and advancing does: the result is in Vx unless x is 15, the
flag is in VF for every x, PC + 2, outcome Ok, and no part but Vx and VF changes. -/
theorem exists_next_setResultAndFlag (s : State) (x : Reg) {b : Byte} {c : Bool} {R F : State → Prop}
    (hR : ∀ t : State, t.getV x = b → R t) (hF : ∀ t : State, t.getV 15 = flagByte c → F t) :
    ∃ t, (.next (s.setResultAndFlag x b c).advance : Result) = .next t ∧ (x ≠ 15 → R t) ∧ F t ∧
      t.pc = s.pc + 2#16 ∧ t.outcome = .ok ∧ Frame s t [.v x, .v 15] :=
  ⟨_, rfl, fun hx => hR _ (by simp [hx.symm]), hF _ (by simp), rfl, rfl,
    (frame_setResultAndFlag s x b c).advance⟩

/-! ### The results as numbers (R110) -/

theorem natCast_toNat_sub (a b : Byte) :
    ((a - b).toNat : Int) = (a.toNat - b.toNat : Int) % 256 := by
  have hb := b.isLt
  rw [BitVec.toNat_sub]
  omega

theorem toNat_ushiftRight_one (a : Byte) : (a >>> 1).toNat = a.toNat / 2 := by
  rw [BitVec.toNat_ushiftRight, Nat.shiftRight_one]

theorem toNat_shiftLeft_one (a : Byte) : (a <<< 1).toNat = 2 * a.toNat % 256 := by
  rw [BitVec.toNat_shiftLeft, Nat.shiftLeft_eq, Nat.pow_one, Nat.mul_comm]

/-! ### The flags as bytes and numbers (R117 to R121) -/

theorem flagByte_carryFlag (a b : Byte) :
    flagByte (carryFlag a b) = if 255 < a.toNat + b.toNat then 1#8 else 0#8 := by
  simp only [flagByte, carryFlag, decide_eq_true_eq]

theorem flagByte_noBorrowFlag (a b : Byte) :
    flagByte (noBorrowFlag a b) = if b.toNat ≤ a.toNat then 1#8 else 0#8 := by
  simp only [flagByte, noBorrowFlag, decide_eq_true_eq]

theorem toNat_flagByte (c : Bool) : (flagByte c).toNat = c.toNat := by
  cases c <;> rfl

theorem toNat_flagByte_shiftedOutRight (a : Byte) :
    (flagByte (shiftedOutRight a)).toNat = a.toNat % 2 := by
  have hbit : (shiftedOutRight a).toNat = a.toNat / 2 ^ 0 % 2 := Nat.toNat_testBit a.toNat 0
  rw [toNat_flagByte, hbit, Nat.pow_zero, Nat.div_one]

/-- Bit 7 is the value divided by 128, which is below 2. -/
theorem toNat_flagByte_shiftedOutLeft (a : Byte) :
    (flagByte (shiftedOutLeft a)).toNat = a.toNat / 128 := by
  have hbit : (shiftedOutLeft a).toNat = a.toNat / 2 ^ 7 % 2 := Nat.toNat_testBit a.toNat 7
  have ha := a.isLt
  rw [toNat_flagByte, hbit]
  omega

/-! ### Instructions without a flag (R111 to R116) -/

/-- Settles O13: the byte is written as it is. -/
theorem loadByteSetsRegister : Obligations.LoadByteSetsRegister := fun x nn s =>
  ⟨decodeWord_eq_some_iff.2 (packXNN_eq_wordXNN 0x6#4 x nn), exists_next_setV s x fun _ ht => ht⟩

/-- Settles O14: the sum of bytes is taken modulo 256. -/
theorem addByteWrapsWithoutFlag : Obligations.AddByteWrapsWithoutFlag := fun x nn s =>
  ⟨decodeWord_eq_some_iff.2 (packXNN_eq_wordXNN 0x7#4 x nn),
    exists_next_setV s x fun _ ht => by rw [ht, BitVec.toNat_add]⟩

/-- Settles O15: the old Vy is written as it is. -/
theorem loadRegisterCopies : Obligations.LoadRegisterCopies := fun x y s =>
  ⟨decodeWord_eq_some_iff.2 (packXYN_eq_wordXY 0x8#4 x y 0x0#4),
    exists_next_setV s x fun _ ht => ht⟩

/-- Settles O16: the operations on bytes are those on their bits. -/
theorem logicActsBitwiseWithoutFlag : Obligations.LogicActsBitwiseWithoutFlag := fun x y s =>
  ⟨decodeWord_eq_some_iff.2 (packXYN_eq_wordXY 0x8#4 x y 0x1#4),
    decodeWord_eq_some_iff.2 (packXYN_eq_wordXY 0x8#4 x y 0x2#4),
    decodeWord_eq_some_iff.2 (packXYN_eq_wordXY 0x8#4 x y 0x3#4),
    exists_next_setV s x fun _ ht b => by rw [ht, BitVec.getLsbD_or],
    exists_next_setV s x fun _ ht b => by rw [ht, BitVec.getLsbD_and],
    exists_next_setV s x fun _ ht b => by rw [ht, BitVec.getLsbD_xor]⟩

/-! ### Instructions with a flag (R117 to R121) -/

/-- Settles O17: the sum of bytes is taken modulo 256, and the flag is the carry. -/
theorem addRegistersSetsCarry : Obligations.AddRegistersSetsCarry := fun x y s =>
  ⟨decodeWord_eq_some_iff.2 (packXYN_eq_wordXY 0x8#4 x y 0x4#4),
    exists_next_setResultAndFlag s x (fun _ ht => by rw [ht, BitVec.toNat_add])
      fun _ ht => by rw [ht, flagByte_carryFlag]⟩

/-- Settles O18: the minuend is Vx. -/
theorem subtractSetsNotBorrow : Obligations.SubtractSetsNotBorrow := fun x y s =>
  ⟨decodeWord_eq_some_iff.2 (packXYN_eq_wordXY 0x8#4 x y 0x5#4),
    exists_next_setResultAndFlag s x (fun _ ht => by rw [ht, natCast_toNat_sub])
      fun _ ht => by rw [ht, flagByte_noBorrowFlag]⟩

/-- Settles O19: Y is in the word alone, and the flag is bit 0 of the old Vx. -/
theorem shiftRightPutsBitInFlag : Obligations.ShiftRightPutsBitInFlag := fun x y s =>
  ⟨decodeWord_eq_some_iff.2 (packXYN_eq_wordXY 0x8#4 x y 0x6#4),
    exists_next_setResultAndFlag s x (fun _ ht => by rw [ht, toNat_ushiftRight_one])
      fun _ ht => by rw [ht, toNat_flagByte_shiftedOutRight]⟩

/-- Settles O20: as for `SUB`, with Vy as the minuend. -/
theorem reverseSubtractSetsNotBorrow : Obligations.ReverseSubtractSetsNotBorrow := fun x y s =>
  ⟨decodeWord_eq_some_iff.2 (packXYN_eq_wordXY 0x8#4 x y 0x7#4),
    exists_next_setResultAndFlag s x (fun _ ht => by rw [ht, natCast_toNat_sub])
      fun _ ht => by rw [ht, flagByte_noBorrowFlag]⟩

/-- Settles O21: Y is in the word alone, and the flag is bit 7 of the old Vx. -/
theorem shiftLeftPutsBitInFlag : Obligations.ShiftLeftPutsBitInFlag := fun x y s =>
  ⟨decodeWord_eq_some_iff.2 (packXYN_eq_wordXY 0x8#4 x y 0xE#4),
    exists_next_setResultAndFlag s x (fun _ ht => by rw [ht, toNat_shiftLeft_one])
      fun _ ht => by rw [ht, toNat_flagByte_shiftedOutLeft]⟩

end Sys2Proof.Machine

/-! ## Proofs of the family 43_index: the index register -/

namespace Sys2Proof.Machine

/-- What writing an address to I and advancing does: I has its value, PC + 2, outcome Ok, and no part
but I changes; there is no flag and no fault (R130 to R132). -/
theorem exists_next_setI (s : State) {a : Word} {n : Nat} (ha : a.toNat = n) :
    ∃ t, (.next (s.setI a).advance : Result) = .next t ∧ t.i.toNat = n ∧
      t.pc = s.pc + 2#16 ∧ t.outcome = .ok ∧ Frame s t [.i] :=
  ⟨_, rfl, ha, rfl, rfl, (frame_setI s a).advance⟩

/-- The sum of I and a byte is taken modulo 65536, not modulo 4096 (R131). -/
theorem toNat_add_zextByte (a : Word) (b : Byte) :
    (a + zextByte b).toNat = (a.toNat + b.toNat) % 65536 := by
  rw [BitVec.toNat_add, toNat_zextByte]

/-- Settles O22: the zero-extended address is written to I. -/
theorem loadIndexSetsAddress : Obligations.LoadIndexSetsAddress := fun nnn s =>
  ⟨decodeWord_eq_some_iff.2 (packNNN_eq_wordNNN 0xA#4 nnn),
    exists_next_setI s (toNat_addrOfNNN nnn)⟩

/-- Settles O23: the sum of words is taken modulo 65536. -/
theorem addIndexWrapsAtSixteenBits : Obligations.AddIndexWrapsAtSixteenBits := fun x s =>
  ⟨decodeWord_eq_some_iff.2 (packXNN_eq_wordX 0xF#4 x 0x1E#8),
    exists_next_setI s (toNat_add_zextByte s.i (s.getV x))⟩

/-- Settles O24: no admissible `FONT_BASE` makes the glyph's address wrap. -/
theorem loadGlyphAddressUsesLowNibble : Obligations.LoadGlyphAddressUsesLowNibble := fun x s =>
  ⟨decodeWord_eq_some_iff.2 (packXNN_eq_wordX 0xF#4 x 0x29#8),
    exists_next_setI s (toNat_glyphAddr (s.getV x))⟩

end Sys2Proof.Machine

/-! ## Proofs of the family 44_random: the random byte -/

namespace Sys2Proof.Machine

/-- The draw's number is read before the draw is consumed, so Vx has the byte of this draw (R140, R141). -/
theorem exec_rnd_getV {x : Reg} {nn : Byte} {s t : State} (h : exec (.rnd x nn) s = .next t) :
    t.getV x = Config.rnd s.draws &&& nn := by
  rw [← next_inj h, State.advance_getV, State.setV_getV, if_pos rfl, State.rndByte]

/-- Settles O25: the masked byte of this draw is written to Vx, and the count of draws is no part of the
core. -/
theorem randomByteIsMasked : Obligations.RandomByteIsMasked := fun x nn s =>
  ⟨decodeWord_eq_some_iff.2 (packXNN_eq_wordXNN 0xC#4 x nn), _, rfl, exec_rnd_getV rfl,
    exec_rnd_draws rfl, rfl, rfl, (frame_consumeDraw_setV s x _).advance⟩

end Sys2Proof.Machine

/-! ## Proofs of the family 45_display: clear and the sprite blit -/

namespace Sys2Proof.Machine

/-- Settles O26: the framebuffer is replaced by the clear one. -/
theorem clearZeroesEveryCell : Obligations.ClearZeroesEveryCell := fun s =>
  ⟨decodeWord_encode .cls, _, rfl, Framebuffer.clear_cell, rfl, rfl, (frame_setFb s _).advance⟩

/-! ### What `DRW` does (R146) -/

@[simp] theorem flagByte_eq_one_iff {c : Bool} : flagByte c = 1#8 ↔ c = true := by
  cases c <;> decide

@[simp] theorem flagByte_eq_zero_iff {c : Bool} : flagByte c = 0#8 ↔ c = false := by
  cases c <;> decide

/-- The cells that `DRW Vx, Vy, nibble` covers from state `s`: the mask of R147(c). -/
abbrev State.DrwCovers (s : State) (x y : Reg) (n : Nibble) : Fin 32 → Fin 64 → Prop :=
  Covers s.mem s.i.toNat n.toNat (s.getV x).toNat (s.getV y).toNat

/-- `DRW` with every sprite row inside memory has a next state. -/
theorem exists_execDrw_eq_next {s : State} {n : Nibble}
    (hn : n.toNat = 0 ∨ s.i.toNat + n.toNat ≤ 4096) (x y : Reg) :
    ∃ t, execDrw x y n s = .next t := by
  rcases withRange_cases s n.toNat _ with ⟨-, e⟩ | ⟨hout, -⟩
  · exact ⟨_, e⟩
  · simp only [Config.memSize] at hout
    omega

/-- `DRW` with a sprite row outside memory aborts (R36). -/
theorem execDrw_of_outside {s : State} {n : Nibble} (hn : 1 ≤ n.toNat)
    (hout : 4096 < s.i.toNat + n.toNat) (x y : Reg) :
    execDrw x y n s = .fault (.addressFault (max s.i.toNat 4096)) := by
  rcases withRange_cases s n.toNat _ with ⟨hin, -⟩ | ⟨-, e⟩
  · simp only [Config.memSize] at hin
    omega
  · exact e

section
variable {x y : Reg} {n : Nibble} {s t : State} (h : execDrw x y n s = .next t)
include h

/-- `DRW` draws its mask on the framebuffer, and VF is the flag of that blit. -/
theorem execDrw_draws : ∃ collision, t.getV 15 = flagByte collision ∧
    (Blit.mk s.fb false).Draws ⟨t.fb, collision⟩ (s.DrwCovers x y n) := by
  obtain rfl := next_inj (withRange_next h).2
  exact ⟨_, by simp [Reg.vf, drawSprite], drawSprite_draws s.fb s.mem _ n.toNat _ _ (by omega)⟩

theorem execDrw_cell_of_covers {r : Fin 32} {c : Fin 64} (hc : s.DrwCovers x y n r c) :
    t.fb.cell r c = !s.fb.cell r c := by
  obtain ⟨_, -, hd⟩ := execDrw_draws h
  exact hd.inside r c hc

theorem execDrw_cell_of_not_covers {r : Fin 32} {c : Fin 64} (hc : ¬ s.DrwCovers x y n r c) :
    t.fb.cell r c = s.fb.cell r c := by
  obtain ⟨_, -, hd⟩ := execDrw_draws h
  exact hd.outside r c hc

theorem execDrw_vf_eq_one_iff :
    t.getV 15 = 1#8 ↔ ∃ r c, s.DrwCovers x y n r c ∧ s.fb.cell r c = true := by
  obtain ⟨collision, hvf, hd⟩ := execDrw_draws h
  rw [hvf, flagByte_eq_one_iff]
  simpa using hd.hit

theorem execDrw_vf_eq_zero_iff :
    t.getV 15 = 0#8 ↔ ¬ ∃ r c, s.DrwCovers x y n r c ∧ s.fb.cell r c = true := by
  rw [← execDrw_vf_eq_one_iff h]
  obtain ⟨collision, hvf, -⟩ := execDrw_draws h
  simp [hvf]

/-- The mask depends on memory, I and the coordinate registers alone, and `DRW` writes none of them
unless a coordinate register is VF (R147(d)). -/
theorem execDrw_keeps_mask (hx : x ≠ 15) (hy : y ≠ 15) :
    t.DrwCovers x y n = s.DrwCovers x y n := by
  obtain ⟨fb, b, rfl⟩ := execDrw_next h
  simp [State.DrwCovers, hx.symm, hy.symm]

/-- The range check of a second `DRW` is that of the first, since I is unchanged. -/
theorem exists_execDrw_again : ∃ u, execDrw x y n t = .next u := by
  have hin := (withRange_next h).1
  obtain ⟨fb, b, rfl⟩ := execDrw_next h
  exact exists_execDrw_eq_next (by exact hin) x y

end

/-! ### One draw and two draws -/

/-- Settles O27, from the two cases of the range check and what the blit does. -/
theorem drawInvertsCoveredCells : Obligations.DrawInvertsCoveredCells := by
  intro x y n s
  refine ⟨decodeWord_eq_some_iff.2 (packXYN_eq_wordXYN 0xD#4 x y n),
    fun hn hout => execDrw_of_outside hn hout x y, fun hin => ?_⟩
  obtain ⟨t, ht⟩ := exists_execDrw_eq_next hin x y
  have hend : t.pc = s.pc + 2#16 ∧ t.outcome = .ok := by
    obtain ⟨fb, b, rfl⟩ := execDrw_next ht
    exact ⟨rfl, rfl⟩
  exact ⟨t, ht, fun _ _ => execDrw_cell_of_covers ht, fun _ _ => execDrw_cell_of_not_covers ht,
    (execDrw_vf_eq_one_iff ht).2, (execDrw_vf_eq_zero_iff ht).2, hend.1, hend.2,
    exec_frame (i := .drw x y n) ht⟩

/-- Two draws with the same mask invert each covered cell twice, and no other cell. -/
theorem execDrw_twice_cell {x y : Reg} {n : Nibble} {s t u : State}
    (ht : execDrw x y n s = .next t) (hu : execDrw x y n t = .next u)
    (hmask : t.DrwCovers x y n = s.DrwCovers x y n) (r : Fin 32) (c : Fin 64) :
    u.fb.cell r c = s.fb.cell r c := by
  by_cases hc : s.DrwCovers x y n r c
  · rw [execDrw_cell_of_covers hu (hmask ▸ hc), execDrw_cell_of_covers ht hc, Bool.not_not]
  · rw [execDrw_cell_of_not_covers hu (hmask ▸ hc), execDrw_cell_of_not_covers ht hc]

/-- After a draw without collision every covered cell is 1. -/
theorem execDrw_cell_of_no_collision {x y : Reg} {n : Nibble} {s t : State}
    (ht : execDrw x y n s = .next t) (hvf : t.getV 15 = 0#8) {r : Fin 32} {c : Fin 64}
    (hc : s.DrwCovers x y n r c) : t.fb.cell r c = true := by
  have hclear : s.fb.cell r c = false :=
    Bool.eq_false_iff.2 fun h1 => (execDrw_vf_eq_zero_iff ht).1 hvf ⟨r, c, hc, h1⟩
  rw [execDrw_cell_of_covers ht hc, hclear, Bool.not_false]

/-- Settles O28: the first draw keeps the mask, so the second inverts the same cells again. -/
theorem drawTwiceRestores : Obligations.DrawTwiceRestores := by
  intro x y n s t hx hy ht
  have hmask := execDrw_keeps_mask ht hx hy
  obtain ⟨u, hu⟩ := exists_execDrw_again ht
  refine ⟨u, hu, execDrw_twice_cell ht hu hmask, ?_⟩
  rintro hvf ⟨r, c, hc⟩
  exact (execDrw_vf_eq_one_iff hu).2 ⟨r, c, hmask ▸ hc, execDrw_cell_of_no_collision ht hvf hc⟩

end Sys2Proof.Machine

/-! ## Proofs of the family 46_keys: skips on a key -/

namespace Sys2Proof.Machine

/-- The key that a byte selects is numbered by its low nibble (R162). -/
theorem keyIndex_eq_ofNat_mod (b : Byte) : keyIndex b = Fin.ofNat 16 (b.toNat % 16) := by
  rw [keyIndex, toNat_and_lowNibble]

/-- The condition of `SKP` reads the key state at the low nibble of the register (R160, R162). -/
theorem State.keyOf_eq_get_mod (s : State) (x : Reg) :
    s.keyOf x = s.keys.get (Fin.ofNat 16 ((s.getV x).toNat % 16)) := by
  rw [State.keyOf_eq, keyIndex_eq_ofNat_mod]

/-- Settles O29: both meanings are skips on the selected key, `SKNP` on the opposite condition. -/
theorem keySkipsTestSelectedKey : Obligations.KeySkipsTestSelectedKey := by
  intro x s
  have hkey := s.keyOf_eq_get_mod x
  exact ⟨decodeWord_eq_some_iff.2 (packXNN_eq_wordX 0xE#4 x 0x9E#8),
    decodeWord_eq_some_iff.2 (packXNN_eq_wordX 0xE#4 x 0xA1#8),
    exists_next_skipIf s (by rw [hkey]),
    exists_next_skipIf s (by rw [Bool.not_eq_true', hkey])⟩

end Sys2Proof.Machine

/-! ## Proofs of the family 47_timer_memory: timers, the key wait and memory transfers -/

namespace Sys2Proof.Machine

/-! ### Timers (R170, R172, R173) -/

/-- Settles O30: `exec` ends before the tick, so the timer read is the one the cycle began with. -/
theorem loadDelayTimerReads : Obligations.LoadDelayTimerReads := fun x s =>
  ⟨decodeWord_eq_some_iff.2 (packXNN_eq_wordX 0xF#4 x 0x07#8), exists_next_setV s x fun _ ht => ht⟩

/-- Settles O32: each load writes its own timer and no other part. -/
theorem timerWritesStoreRegister : Obligations.TimerWritesStoreRegister := fun x s =>
  ⟨decodeWord_eq_some_iff.2 (packXNN_eq_wordX 0xF#4 x 0x15#8),
    decodeWord_eq_some_iff.2 (packXNN_eq_wordX 0xF#4 x 0x18#8),
    ⟨_, rfl, rfl, rfl, rfl, (frame_setDt s _).advance⟩,
    ⟨_, rfl, rfl, rfl, rfl, (frame_setSt s _).advance⟩⟩

/-! ### The key wait (R171) -/

theorem lowestKey_eq_none {keys : Keys} (hnone : ∀ k, keys.get k = false) :
    lowestKey keys = none := by
  rcases lowestKey_cases keys with ⟨e, -⟩ | ⟨k, -, hk, -⟩
  · exact e
  · exact absurd hk (by simp [hnone k])

theorem lowestKey_eq_some {keys : Keys} {k : Fin 16} (hk : keys.get k = true)
    (hleast : ∀ j < k, keys.get j = false) : lowestKey keys = some k.val := by
  rcases lowestKey_cases keys with ⟨-, hnone⟩ | ⟨j, e, hj, hjleast⟩
  · exact absurd hk (by simp [hnone k])
  · have hkj : k ≤ j := not_lt.1 fun hlt => by simp [hleast j hlt] at hj
    have hjk : j ≤ k := not_lt.1 fun hlt => by simp [hjleast k hlt] at hk
    rw [e, le_antisymm hjk hkj]

theorem execLdVxK_of_none {x : Reg} {s : State} (hnone : ∀ k, s.keys.get k = false) :
    execLdVxK x s = .next s.block := by
  rw [execLdVxK, lowestKey_eq_none hnone]

theorem execLdVxK_of_least {x : Reg} {s : State} {k : Fin 16} (hk : s.keys.get k = true)
    (hleast : ∀ j < k, s.keys.get j = false) :
    execLdVxK x s = .next (s.setV x (BitVec.ofNat 8 k.val)).advance := by
  rw [execLdVxK, lowestKey_eq_some hk hleast]

/-- Settles O31, from the two cases of the key wait. -/
theorem keyWaitBlocksOrCaptures : Obligations.KeyWaitBlocksOrCaptures := by
  intro x s
  refine ⟨decodeWord_eq_some_iff.2 (packXNN_eq_wordX 0xF#4 x 0x0A#8), fun hnone => ?_,
    fun k hk hleast => ?_⟩
  · exact ⟨_, execLdVxK_of_none hnone, rfl, rfl, frame_block s []⟩
  · have hfits : (BitVec.ofNat 8 k.val).toNat = k.val := Nat.mod_eq_of_lt (by omega)
    obtain ⟨t, ht, hend⟩ := exists_next_setV s x (b := BitVec.ofNat 8 k.val)
      (R := fun t => (t.getV x).toNat = k.val) fun _ ht => by rw [ht, hfits]
    exact ⟨t, (execLdVxK_of_least hk hleast).trans ht, hend⟩

/-! ### Stores (R174, R175) -/

/-- Each decimal digit of a byte fits in a byte, most significant first. -/
theorem toNat_bcdDigits (b : Byte) :
    ((bcdDigits b).getD 0 0#8).toNat = b.toNat / 100 ∧
    ((bcdDigits b).getD 1 0#8).toNat = b.toNat / 10 % 10 ∧
    ((bcdDigits b).getD 2 0#8).toNat = b.toNat % 10 := by
  have hb := b.isLt
  simp only [bcdDigits, List.getD_cons_zero, List.getD_cons_succ, BitVec.toNat_ofNat]
  omega

/-- Byte `k` of the digits that `LD B, Vx` computes is at `I + k` afterwards. -/
theorem exec_ldBVx_read {x : Reg} {s t : State} {k : Nat} (hm : s.mem.wf = true)
    (h : exec (.ldBVx x) s = .next t) (hk : k < 3) :
    t.mem.read (s.i.toNat + k) = (bcdDigits (s.getV x)).getD k 0#8 := by
  obtain ⟨hr, rfl⟩ := execLdBVx_next h
  have hstored : s.i.toNat ≤ s.i.toNat + k ∧
      s.i.toNat + k < s.i.toNat + (bcdDigits (s.getV x)).length :=
    ⟨Nat.le_add_right _ _, Nat.add_lt_add_left hk _⟩
  rw [State.advance_mem, State.store_mem, Memory.read_writeBytes hm hr, if_pos hstored,
    Nat.add_sub_cancel_left]

/-- Settles O33: the range check is that of three bytes, and the three stored bytes are the digits. -/
theorem bcdStoresThreeDigits : Obligations.BcdStoresThreeDigits := by
  intro x s hm
  obtain ⟨habort, hnext⟩ := abortsExactlyOutsideMemory (.ldBVx x) s
  refine ⟨decodeWord_eq_some_iff.2 (packXNN_eq_wordX 0xF#4 x 0x33#8),
    fun hout => habort (Nat.succ_pos _) (Nat.lt_succ_of_le hout), fun hin => ?_⟩
  obtain ⟨t, ht⟩ := hnext (.inr hin)
  have hend : t.pc = s.pc + 2#16 ∧ t.outcome = .ok := by
    obtain ⟨-, rfl⟩ := execLdBVx_next ht
    exact ⟨rfl, rfl⟩
  obtain ⟨hhundreds, htens, hones⟩ := toNat_bcdDigits (s.getV x)
  refine ⟨t, ht, ?_, ?_, ?_, hend.1, hend.2, exec_frame ht⟩
  · rw [← hhundreds, ← exec_ldBVx_read hm ht (by decide), Nat.add_zero]
  · rw [← htens, ← exec_ldBVx_read hm ht (by decide)]
  · rw [← hones, ← exec_ldBVx_read hm ht (by decide)]

/-- Settles O34: the range check is that of x + 1 bytes. -/
theorem blockStoreWritesRegisters : Obligations.BlockStoreWritesRegisters := by
  intro x s hm
  obtain ⟨habort, hnext⟩ := abortsExactlyOutsideMemory (.ldMemVx x) s
  refine ⟨decodeWord_eq_some_iff.2 (packXNN_eq_wordX 0xF#4 x 0x55#8),
    fun hout => habort (Nat.succ_pos _) (Nat.lt_succ_of_le hout), fun hin => ?_⟩
  obtain ⟨t, ht⟩ := hnext (.inr hin)
  have hok : t.outcome = .ok := by
    obtain ⟨-, rfl⟩ := execLdMemVx_next ht
    rfl
  exact ⟨t, ht, fun _ => exec_ldMemVx_read hm ht, exec_ldMemVx_pc ht, hok, exec_frame ht⟩

/-! ### The load (R176) -/

/-- After `LD Vx, [I]` register `Vj` is byte `I + j`, for every `j` up to `x`. -/
theorem execLdVxMem_getV {x j : Reg} {s t : State} (h : execLdVxMem x s = .next t)
    (hj : j ≤ x) : t.getV j = s.mem.read (s.i.toNat + j.val) := by
  rw [← next_inj (withRange_next h).2, State.advance_getV, State.setVUpTo_getV, if_pos hj]

/-- Settles O35: the range check is that of x + 1 bytes, as for the store. -/
theorem blockLoadReadsRegisters : Obligations.BlockLoadReadsRegisters := by
  intro x s
  obtain ⟨habort, hnext⟩ := abortsExactlyOutsideMemory (.ldVxMem x) s
  refine ⟨decodeWord_eq_some_iff.2 (packXNN_eq_wordX 0xF#4 x 0x65#8),
    fun hout => habort (Nat.succ_pos _) (Nat.lt_succ_of_le hout), fun hin => ?_⟩
  obtain ⟨t, ht⟩ := hnext (.inr hin)
  have hend : t.pc = s.pc + 2#16 ∧ t.outcome = .ok := by
    obtain ⟨f, rfl⟩ := execLdVxMem_next ht
    exact ⟨rfl, rfl⟩
  exact ⟨t, ht, fun _ => execLdVxMem_getV ht, hend.1, hend.2, exec_frame ht⟩

/-- Settles O51: the store leaves I alone, so the load passes the range check that the store passed and
reads the bytes that it wrote. -/
theorem blockStoreThenLoadRestores : Obligations.BlockStoreThenLoadRestores := by
  intro x s t u hm ht humem hui
  have hi : u.i = s.i := hui.trans (exec_frame ht .i (by simp [writeSet]))
  have hin : u.i.toNat + (x.val + 1) ≤ Config.memSize := hi ▸ (execLdMemVx_next ht).1
  obtain ⟨w, hw⟩ := (abortsExactlyOutsideMemory (.ldVxMem x) u).2 (.inr hin)
  refine ⟨w, hw, fun j hj => ?_⟩
  calc w.getV j = u.mem.read (u.i.toNat + j.val) := execLdVxMem_getV hw hj
    _ = t.mem.read (s.i.toNat + j.val) := by rw [humem, hi]
    _ = s.getV j := exec_ldMemVx_read hm ht hj

end Sys2Proof.Machine

/-! ## Proofs of the families 60_exceptions and 70_reset_and_hazards: faults, the host's transactions,
reset, load and the finished program -/

namespace Sys2Proof.Machine

/-! ### The load operation (R234) -/

/-- An image that fits is stored from 0x200 on, with outcome `Ok` and PC where it was. -/
theorem State.load_of_fits {s : State} {image : List Byte}
    (hfit : Config.loadAddr + image.length ≤ Config.memSize) :
    s.load image = .next ((s.store Config.loadAddr image).complete s.pc) :=
  if_neg (by omega)

/-- An image that does not fit is refused (R191). -/
theorem State.load_of_tooLong {s : State} {image : List Byte}
    (hlong : Config.memSize < Config.loadAddr + image.length) :
    s.load image = .fault (.loadFault image.length) :=
  if_pos hlong

/-- A load that has a next state has stored an image that fits. -/
theorem State.load_next {s t : State} {image : List Byte} (h : s.load image = .next t) :
    Config.loadAddr + image.length ≤ Config.memSize ∧
      t = (s.store Config.loadAddr image).complete s.pc := by
  by_cases hfit : Config.loadAddr + image.length ≤ Config.memSize
  · exact ⟨hfit, next_inj (h.symm.trans (State.load_of_fits hfit))⟩
  · rw [State.load_of_tooLong (by omega)] at h
    exact nomatch h

/-! ### What the host is answered (R214, Table 60-2) -/

section
variable {s t : State} {f : Fault} {image : List Byte}

theorem State.transact_step_of_next (h : step s = .next t) :
    s.transact .step = (t, .outcome t.outcome) :=
  congrArg s.answer h

theorem State.transact_step_of_fault (h : step s = .fault f) :
    s.transact .step = (s.report f, .outcome (.fault f)) :=
  congrArg s.answer h

theorem State.transact_load_of_next (h : s.load image = .next t) :
    s.transact (.load image) = (t, .outcome t.outcome) :=
  congrArg s.answer h

theorem State.transact_load_of_fault (h : s.load image = .fault f) :
    s.transact (.load image) = (s.report f, .outcome (.fault f)) :=
  congrArg s.answer h

end

/-! ### The invariant under the host's transactions (R14, R214) -/

/-- A load keeps the invariant: it writes inside memory and leaves PC and the stack alone. -/
theorem State.load_keeps_inv {s t : State} {image : List Byte} (h : s.load image = .next t)
    (hs : s.Inv) : t.Inv := by
  obtain ⟨hfit, rfl⟩ := State.load_next h
  obtain ⟨hm, hpc, hstack⟩ := hs
  exact ⟨Memory.wf_writeBytes hm hfit, hpc, hstack⟩

/-- The invariant does not speak of the outcome and the fault log. -/
theorem report_inv {s : State} {f : Fault} : (s.report f).Inv ↔ s.Inv := Iff.rfl

/-- The invariant does not speak of the key flags. -/
theorem setKeys_inv {s : State} {k : Keys} : (s.setKeys k).Inv ↔ s.Inv := Iff.rfl

/-- A later reset meets the invariant as the first one does: it differs in the model's own fields. -/
theorem resetAgain_inv (s : State) : s.resetAgain.Inv := resetMeetsInvariant

/-- Every host transaction keeps the invariant. -/
theorem transact_keeps_inv {s : State} (x : Transaction) (hs : s.Inv) : (s.transact x).1.Inv := by
  rcases s.transact_cases x with
    ⟨t, hstep | ⟨image, hload⟩, e⟩ | ⟨f, -, e⟩ | e | ⟨k, e⟩ | e <;> rw [e]
  · exact stepKeepsInvariant s t hs hstep
  · exact State.load_keeps_inv hload hs
  · exact report_inv.2 hs
  · exact resetAgain_inv s
  · exact setKeys_inv.2 hs
  · exact hs

/-- Settles O41, by induction on the sequence: every transaction keeps the invariant. -/
theorem transactionsKeepInvariant : Obligations.TransactionsKeepInvariant := by
  intro s ts hs
  induction ts generalizing s with
  | nil => exact hs
  | cons x ts ih => exact ih (s.transact x).1 (transact_keeps_inv x hs)

/-! ### The fault log (R197) -/

/-- From `s` to `t` the log grows by the fault that `t` reports, if it reports one. -/
def LogsReport (s t : State) : Prop :=
  (∀ f, t.outcome = .fault f → t.faultLog = s.faultLog ++ [f]) ∧
  ((∀ f, t.outcome ≠ .fault f) → t.faultLog = s.faultLog)

theorem logsReport_continueFault (s : State) (f : Fault) : LogsReport s (s.continueFault f) := by
  refine ⟨fun g hg => ?_, fun hno => absurd rfl (hno f)⟩
  obtain rfl : f = g := by simpa using hg
  rfl

/-- Where nothing is reported, logging is leaving the log as it was. -/
theorem LogsReport.of_no_fault {s t : State} (hno : ∀ f, t.outcome ≠ .fault f)
    (hlog : t.faultLog = s.faultLog) : LogsReport s t :=
  ⟨fun f hf => absurd hf (hno f), fun _ => hlog⟩

theorem LogsReport.of_ok {s t : State} (hok : t.outcome = .ok)
    (hlog : t.faultLog = s.faultLog) : LogsReport s t :=
  .of_no_fault (by simp [hok]) hlog

/-- The tick leaves outcome and log alone. -/
theorem logsReport_tick {s t : State} : LogsReport s t.tick ↔ LogsReport s t := Iff.rfl

/-- Every instruction that has a next state logs what it reports: only `RET` and `CALL` can take a
continuing fault, and the blocked key wait reports none. -/
theorem exec_logsReport {i : Instr} {s t : State} (h : exec i s = .next t) : LogsReport s t := by
  cases i with
  | ret =>
    obtain ⟨_, rfl⟩ | rfl := execRet_next h
    · exact .of_ok rfl rfl
    · exact logsReport_continueFault s _
  | call =>
    obtain ⟨_, rfl⟩ | rfl := execCall_next h
    · exact .of_ok rfl rfl
    · exact logsReport_continueFault s _
  | ldVxK =>
    obtain rfl | ⟨_, rfl⟩ := execLdVxK_next h
    · exact .of_no_fault (by simp) rfl
    · exact .of_ok rfl rfl
  | drw => obtain ⟨_, _, rfl⟩ := execDrw_next h; exact .of_ok rfl rfl
  | ldBVx => obtain ⟨-, rfl⟩ := execLdBVx_next h; exact .of_ok rfl rfl
  | ldMemVx => obtain ⟨-, rfl⟩ := execLdMemVx_next h; exact .of_ok rfl rfl
  | ldVxMem => obtain ⟨_, rfl⟩ := execLdVxMem_next h; exact .of_ok rfl rfl
  | _ => exact next_inj h ▸ .of_ok rfl rfl

/-- Settles O47: an illegal word is a continuing fault, and every instruction logs what it reports. -/
theorem stepAppendsReportedFault : Obligations.StepAppendsReportedFault := by
  intro s t h
  obtain ⟨-, u, rfl, ⟨-, rfl⟩ | ⟨i, -, hu⟩⟩ := step_next h
  · exact logsReport_tick.2 (logsReport_continueFault s _)
  · exact logsReport_tick.2 (exec_logsReport hu)

/-! ### The AddressFault (R192) -/

/-- An instruction ends in a fault only where the bytes it accesses reach the end of memory. -/
theorem exec_fault {i : Instr} {s : State} {f : Fault} (h : exec i s = .fault f) :
    1 ≤ accessBytes i ∧ Config.memSize < s.i.toNat + accessBytes i ∧
      f = .addressFault (max s.i.toNat Config.memSize) := by
  by_cases hin : accessBytes i = 0 ∨ s.i.toNat + accessBytes i ≤ Config.memSize
  · obtain ⟨t, ht⟩ := (exec_checked i s).exists_next hin
    exact nomatch h.symm.trans ht
  · have hn : 1 ≤ accessBytes i := by omega
    have hout : Config.memSize < s.i.toNat + accessBytes i := by omega
    refine ⟨hn, hout, ?_⟩
    simpa using h.symm.trans ((exec_checked i s).eq_fault hn hout)

/-- The tick after an instruction passes a fault on, and adds none (R72). -/
theorem tickAfter_fault {r : Result} {f : Fault} (h : tickAfter r = .fault f) : r = .fault f := by
  cases r with
  | next u => exact nomatch h
  | fault g => exact h
  | refused q => exact nomatch h

/-- Whether and how a step faults depends on PC, memory and I alone. -/
theorem step_fault_of_eq {s t : State} {f : Fault} (h : step s = .fault f) (hpc : t.pc = s.pc)
    (hmem : t.mem = s.mem) (hi : t.i = s.i) : step t = .fault f := by
  have hfetch : t.fetchWord = s.fetchWord := by rw [State.fetchWord, hpc, hmem, State.fetchWord]
  rcases step_cases s with ⟨hout, e⟩ | ⟨-, -, e⟩ | ⟨i, hin, hd, e⟩ <;> rw [e] at h
  · rw [fetchOutsideMemoryFaults t (hpc ▸ hout), hpc, h]
  · exact nomatch h
  · obtain ⟨hn, hacc, rfl⟩ := exec_fault (tickAfter_fault h)
    have he := (exec_checked i t).eq_fault hn (hi ▸ hacc)
    rw [step_of_decodeWord_some (hpc ▸ hin) (hfetch ▸ hd), he, hi]
    rfl

/-- Settles O48: the transaction only reports the fault, which changes neither PC nor memory nor I. -/
theorem addressFaultRepeats : Obligations.AddressFaultRepeats := by
  intro s f h
  rw [State.transact_step_of_fault h]
  exact ⟨rfl, rfl, step_fault_of_eq h rfl rfl rfl⟩

/-! ### Reads and key writes (R209, R211, R212) -/

theorem frame_setKeys (s : State) (ks : Keys) :
    Frame s (s.setKeys ks) ((List.finRange 16).map .key) := by
  intro p hp
  cases p with
  | key k => simp at hp
  | _ => rfl

theorem State.sound_iff (s : State) : s.sound = true ↔ s.st.toNat ≠ 0 := by
  simp [State.sound, ← BitVec.toNat_inj]

/-- Settles O55, one entry of Table 60-2 after the other. -/
theorem hostReadsAndKeyWrites : Obligations.HostReadsAndKeyWrites := fun s ks =>
  ⟨fun _ => State.transact_step_of_next, fun _ _ => State.transact_load_of_next, rfl,
    ⟨_, rfl, s.sound_iff⟩, rfl, fun _ => rfl, rfl, frame_setKeys s ks, rfl⟩

/-! ### The finished program (R246) -/

/-- Timers that stand at 0 stay there, so the tick changes nothing. -/
theorem State.tick_of_zero {s : State} (hdt : s.dt = 0#8) (hst : s.st = 0#8) : s.tick = s := by
  have hd : tickTimer s.dt = s.dt := by rw [hdt]; rfl
  have ht : tickTimer s.st = s.st := by rw [hst]; rfl
  rw [State.tick, hd, ht]

/-- A step of a finished program completes at the PC where it stands. -/
theorem step_of_finishedAt {s : State} {h : Addr12} (hfin : s.FinishedAt h) :
    step s = .next (s.complete s.pc) := by
  obtain ⟨hpc, hh, hword, hdt, hst⟩ := hfin
  have hin : s.pc.toNat ≤ 4094 := by rw [hpc, toNat_addrOfNNN]; exact hh
  have hd : decodeWord s.fetchWord = some (.jp h) := by rw [hword, decodeWord_encode]
  calc step s = .next (s.complete (addrOfNNN h)).tick := step_of_decodeWord_some hin hd
    _ = .next (s.complete s.pc) := by
      rw [State.tick_of_zero (s := s.complete _) hdt hst, hpc]

/-- Settles O49: the step changes no more than the outcome, of which being finished does not speak. -/
theorem finishedIsFixedPoint : Obligations.FinishedIsFixedPoint := fun _ _ hfin =>
  ⟨_, step_of_finishedAt hfin, rfl, rfl, rfl, hfin⟩

/-! ### Load -/

/-- Settles O54: the two cases of the load. -/
theorem loadCopiesImageOrFaults : Obligations.LoadCopiesImageOrFaults := by
  intro s image hm
  refine ⟨fun hlong => ?_, fun hfit => ?_⟩
  · have hl := State.load_of_tooLong (s := s) hlong
    rw [State.transact_load_of_fault hl]
    exact ⟨hl, rfl, rfl⟩
  · have hl := State.load_of_fits (s := s) hfit
    refine ⟨_, hl, State.transact_load_of_next hl, fun k hk => ?_, rfl, rfl,
      (frame_store s _ image).complete _⟩
    have hstored : 0x200 ≤ 0x200 + k ∧ 0x200 + k < 0x200 + image.length := by omega
    calc (s.mem.writeBytes 0x200 image).read (0x200 + k)
        = image.getD (0x200 + k - 0x200) 0#8 := by
          rw [Memory.read_writeBytes hm hfit, if_pos hstored]
      _ = image.getD k 0#8 := by rw [Nat.add_sub_cancel_left]

/-! ### Reset (R230, R232) -/

/-- Bytes that stand at the successive addresses are the bytes read. -/
theorem Memory.readBytes_eq_of_read {m : Memory} {a : Nat} {bs : List Byte}
    (h : ∀ k < bs.length, m.read (a + k) = bs.getD k 0#8) : m.readBytes a bs.length = bs := by
  induction bs generalizing a with
  | nil => rfl
  | cons b bs ih =>
    have hb : m.read a = b := h 0 (Nat.succ_pos _)
    have hbs : m.readBytes (a + 1) bs.length = bs := ih fun k hk => by
      rw [Nat.add_assoc, Nat.add_comm 1 k, h (k + 1) (Nat.succ_lt_succ hk), List.getD_cons_succ]
    rw [List.length_cons, Memory.readBytes, hb, hbs]

/-- Outside the 80 bytes of the font memory is 0 after reset (R20). -/
theorem Memory.resetByte_of_outside_font {a : Nat}
    (ha : a < Config.fontBase.val ∨ Config.fontBase.val + 80 ≤ a) : Memory.resetByte a = 0#8 := by
  unfold Memory.resetByte
  split
  · split
    · have hlen : fontBytes.length = 80 := rfl
      exact List.getD_eq_default _ _ (by omega)
    · rfl
  · rfl

/-- Settles O1: the rows of Table 10-3; a later reset differs from the first in the overwritten fields. -/
theorem resetGivesEveryResetValue : Obligations.ResetGivesEveryResetValue := by
  have hfont : State.reset.mem.readBytes Config.fontBase.val 80 = fontBytes :=
    Memory.readBytes_eq_of_read (bs := fontBytes) fun _ hk => Memory.resetByte_font hk
  refine ⟨?_, rfl, rfl, rfl, ?_, rfl, rfl, ?_, ?_, hfont, ?_, fun _ => rfl⟩
  · simp [State.getV, State.reset, Vector.get_eq_getElem]
  · simp [State.reset, Vector.get_eq_getElem]
  · simp [Framebuffer.cell, State.reset, Vector.get_eq_getElem]
  · simp [State.reset, Vector.get_eq_getElem]
  · exact fun _ _ ha => Memory.resetByte_of_outside_font ha

end Sys2Proof.Machine
